-- ==== Sys2Proof/Word.lean ====
section
/-! DEFINITION. The word types of the XM5 protocol framer (spec/00_scope.md R7). -/

namespace Sys2Proof

/-- A wire byte, a buffer cell, a type, sequence or checksum value: 8 bits (R7). -/
abbrev Byte := BitVec 8

/-- The declared payload length `L`: a 32-bit unsigned value (R7). -/
abbrev Word32 := BitVec 32

end Sys2Proof
end

