-- ==== Sys2Proof/Config.lean ====
section
/-! DEFINITION. The named constants of spec/00_scope.md R5, the operation codes of
spec/30_encoding.md R80, the open parameters of R6, and the free values. -/

namespace Sys2Proof.Config

/-- `HEADER` (R5): first byte of every frame. -/
def header : Byte := 0x3e#8
/-- `TRAILER` (R5): last byte of every frame. -/
def trailer : Byte := 0x3c#8
/-- `ESC` (R5): the escape byte that announces an escaped byte. -/
def esc : Byte := 0x3d#8
/-- `ESC_MASK` (R5): ANDed into an escaped byte on encode. -/
def escMask : Byte := 0b11101111#8
/-- `UNESC_OR` (R5): `~ESC_MASK & 0xFF`, ORed into the byte after an escape on decode. -/
def unescOr : Byte := ~~~escMask
/-- `TYPE_ACK` (R5). -/
def typeAck : Byte := 0x01#8
/-- `TYPE_CMD1` (R5). -/
def typeCmd1 : Byte := 0x0c#8
/-- `TYPE_CMD2` (R5). -/
def typeCmd2 : Byte := 0x0e#8
/-- `HDR_LEN` (R5): header, type, seq and 4 length bytes. -/
def hdrLen : Nat := 7
/-- `TRL_LEN` (R5): checksum and trailer. -/
def trlLen : Nat := 2

/-- Operation code of RX_PARSE (R80). -/
def opRxParse : Byte := 0x10#8
/-- Operation code of RX_RESET (R80). -/
def opRxReset : Byte := 0x11#8
/-- Operation code of VIEW_READ (R80). -/
def opViewRead : Byte := 0x12#8
/-- Bits 7 to 1 of the operation code of TX_ENCODE_CMD (R80: `0010000s`); bit 0 is `s`. -/
def opTxEncodeCmd : BitVec 7 := 0b0010000#7
/-- Operation code of TX_ENCODE_ACK (R80). -/
def opTxEncodeAck : Byte := 0x28#8
/-- Operation code of CHECKSUM (R80). -/
def opChecksum : Byte := 0x30#8

/-- The seven defined operation codes; every other value is undefined (R80, R81). -/
def definedOps : List Byte :=
  [opRxParse, opRxReset, opViewRead, opTxEncodeCmd ++ 0#1, opTxEncodeCmd ++ 1#1, opTxEncodeAck,
    opChecksum]

/-- The three type codes a frame can be recognised by; every other type byte is Unknown (R65). -/
def knownTypes : List Byte := [typeAck, typeCmd1, typeCmd2]

/-- The second bytes of the three canonical escape pairs (R63). -/
def canonicalSeconds : List Byte := [header &&& escMask, trailer &&& escMask, esc &&& escMask]

/-- `ESC_AFTER_ESC` (R6, D5): how the RX unit treats an `ESC` byte while an escape is pending. -/
inductive EscAfterEsc where
  /-- The second `ESC` is the escaped byte and gives `0x3d`. -/
  | unescape
  /-- The second `ESC` is itself an escape announcement. -/
  | rearm
deriving DecidableEq, Repr, Inhabited

/-- `BUF_CAP` (R6, D6): the RX buffer's capacity in unescaped bytes, a natural of at least 9 or
unbounded. -/
inductive Capacity where
  | unbounded
  | bytes (n : Nat) (atLeastNine : 9 ≤ n)
deriving DecidableEq, Repr

/-- The open parameters of R6, fixed when the block is built (R29). `txMaxBody` is `TX_MAX_BODY`, a
natural of at most `2^32 - 1` (D10). -/
structure Params where
  bufCap : Capacity
  escAfterEsc : EscAfterEsc
  txMaxBody : Fin 4294967296
deriving DecidableEq, Repr

/-- Free value: what an unspecified cell of `buf`, one at or above `len`, holds (R21, R35, 93 I4). No
operation reads one (log 7). -/
opaque unspecifiedCell : Nat → Byte

/-- Free value: the `ESC_AFTER_ESC` of the block `State.reset` describes. The spec leaves it open
(R6, D5; log 8). -/
opaque escAfterEscAtReset : EscAfterEsc

/-- The parameters of the block that `State.reset` describes: DESIGN CHOICE, unsafe (log 8). The two
capacities are those that spec/95_test_vectors.md assumes for its vectors. -/
def paramsAtReset : Params :=
  { bufCap := .unbounded, escAfterEsc := escAfterEscAtReset, txMaxBody := 4294967295 }

end Sys2Proof.Config
end

