-- ==== Sys2Proof/Syntax.lean ====
section
/-! DEFINITION. The instructions: one constructor per row of spec/opcode_table.json. -/

namespace Sys2Proof

/-- The rows of the opcode table: the operations of the interface (format port-op, R80, R81), the wire
units that the RX unit tells apart (wire-byte and wire-pair, R62 to R71), and the type bytes of a
frame (type-byte, R65, R151). -/
inductive Instr where
  /-- RX_PARSE(chunk), op `0x10` (R118). -/
  | rxParse (chunk : List Byte)
  /-- RX_RESET, op `0x11` (R230). -/
  | rxReset
  /-- VIEW_READ, op `0x12` (R157). -/
  | viewRead
  /-- TX_ENCODE_CMD(s, seq, body), op `0x20` or `0x21`; `s` is op bit 0 (R175). -/
  | txEncodeCmd (s : BitVec 1) (seq : Byte) (body : List Byte)
  /-- TX_ENCODE_ACK(seq), op `0x28` (R176). -/
  | txEncodeAck (seq : Byte)
  /-- CHECKSUM(bytes), op `0x30` (R100). -/
  | checksum (bytes : List Byte)
  /-- A transaction with any other op (R81). -/
  | undefinedOp (op : Byte)
  /-- WIRE.HEADER, the wire byte `3e` (R113). -/
  | wireHeader
  /-- WIRE.TRAILER, the wire byte `3c` (R69). -/
  | wireTrailer
  /-- WIRE.ESC, the wire byte `3d` (R112). -/
  | wireEsc
  /-- WIRE.ESC_HEADER, the wire pair `3d 2e` (R63). -/
  | wireEscHeader
  /-- WIRE.ESC_TRAILER, the wire pair `3d 2c` (R63). -/
  | wireEscTrailer
  /-- WIRE.ESC_ESC, the wire pair `3d 2d` (R63). -/
  | wireEscEsc
  /-- WIRE.ESC_ANY, a wire pair `3d x` that is none of the three canonical ones (R64). -/
  | wireEscAny (x : Byte)
  /-- TYPE.ACK, the type byte `01` (R65). -/
  | typeAck
  /-- TYPE.COMMAND1, the type byte `0c` (R65). -/
  | typeCommand1
  /-- TYPE.COMMAND2, the type byte `0e` (R65). -/
  | typeCommand2
  /-- TYPE.UNKNOWN, any other type byte (R151). -/
  | typeUnknown (raw : Byte)
deriving DecidableEq, Repr

end Sys2Proof
end

