-- ==== Sys2Proof/WellFormed.lean ====
section
/-! DEFINITION. Well-formed instructions: an "any other value" row holds no value that another row of
its format names. -/

namespace Sys2Proof

/-- `undefinedOp` holds no defined operation code (R81), `wireEscAny` no canonical second byte (R63,
R71), `typeUnknown` no known type code (R65). Operands are otherwise unrestricted: an over-long body
is an instruction, which records a fault (R173). -/
def Instr.wellFormed : Instr → Bool
  | .rxParse _ => true
  | .rxReset => true
  | .viewRead => true
  | .txEncodeCmd _ _ _ => true
  | .txEncodeAck _ => true
  | .checksum _ => true
  | .undefinedOp op => !(Config.definedOps.contains op)
  | .wireHeader => true
  | .wireTrailer => true
  | .wireEsc => true
  | .wireEscHeader => true
  | .wireEscTrailer => true
  | .wireEscEsc => true
  | .wireEscAny x => !(Config.canonicalSeconds.contains x)
  | .typeAck => true
  | .typeCommand1 => true
  | .typeCommand2 => true
  | .typeUnknown raw => !(Config.knownTypes.contains raw)

end Sys2Proof
end

