-- ==== Sys2Proof/Decode.lean ====
section
/-! DEFINITION. Requests as the block meets them, their decoding (total, rejecting by name), and the
encoder, both from the tables of spec/30_encoding.md and spec/opcode_table.json. -/

namespace Sys2Proof

/-- One operand of a transaction (R82): an 8-bit value, or a byte sequence passed whole with its
explicit length, as in the transaction image of spec/95_test_vectors.md (`n=<length>:` then bytes). -/
inductive Operand where
  | byte (value : Byte)
  | bytes (n : Nat) (data : List Byte)
deriving DecidableEq, Repr

/-- One transaction on the interface: op byte, then the operands in the order of R80. -/
structure Transaction where
  op : Byte
  operands : List Operand
deriving DecidableEq, Repr

/-- What the host can issue, one constructor per format of the opcode table (log 3, log 4, log 6). -/
inductive Request where
  /-- Format port-op: a transaction of R80. -/
  | port (t : Transaction)
  /-- Formats wire-byte and wire-pair: bytes of the RX input stream (R40(a)), first on the wire first. -/
  | wire (chunk : List Byte)
  /-- Format type-byte: the type byte of a frame (R65). -/
  | typeByte (value : Byte)
deriving DecidableEq, Repr

/-- Why a transaction with a defined op is no instruction (log 2). -/
inductive DecodeError where
  /-- The operand list is not the one R80 gives the op. -/
  | wrongOperands (op : Byte)
  /-- A byte sequence's explicit length (R82) is not the number of its bytes. -/
  | lengthMismatch (op : Byte)
deriving DecidableEq, Repr

/-- Bits 7 to 1 of an op: the part TX_ENCODE_CMD fixes (R80). -/
def opHigh (op : Byte) : BitVec 7 := op.extractLsb' 1 7

/-- Bit 0 of an op: the operand `s` of TX_ENCODE_CMD (R82). -/
def opBit0 (op : Byte) : BitVec 1 := op.extractLsb' 0 1

/-- A byte-sequence operand whose explicit length is right. -/
def takeBytes (op : Byte) (n : Nat) (data : List Byte) (make : List Byte → Instr) :
    Except DecodeError Instr :=
  if n = data.length then .ok (make data) else .error (.lengthMismatch op)

/-- The operands of an op that takes none (R80). -/
def noOperand (op : Byte) (i : Instr) : List Operand → Except DecodeError Instr
  | [] => .ok i
  | _ => .error (.wrongOperands op)

/-- The operands of an op that takes one byte sequence (R80). -/
def bytesOperand (op : Byte) (make : List Byte → Instr) : List Operand → Except DecodeError Instr
  | [.bytes n data] => takeBytes op n data make
  | _ => .error (.wrongOperands op)

/-- The operands of an op that takes an 8-bit value (R80). -/
def byteOperand (op : Byte) (make : Byte → Instr) : List Operand → Except DecodeError Instr
  | [.byte v] => .ok (make v)
  | _ => .error (.wrongOperands op)

/-- The operands of an op that takes an 8-bit value and a byte sequence (R80). -/
def byteBytesOperand (op : Byte) (make : Byte → List Byte → Instr) :
    List Operand → Except DecodeError Instr
  | [.byte v, .bytes n data] => takeBytes op n data (make v)
  | _ => .error (.wrongOperands op)

/-- A transaction (R80, R81): the op selects the row, its operands are passed whole. -/
def decodePort (t : Transaction) : Except DecodeError Instr :=
  if t.op = Config.opRxParse then bytesOperand t.op .rxParse t.operands
  else if t.op = Config.opRxReset then noOperand t.op .rxReset t.operands
  else if t.op = Config.opViewRead then noOperand t.op .viewRead t.operands
  else if opHigh t.op = Config.opTxEncodeCmd then
    byteBytesOperand t.op (.txEncodeCmd (opBit0 t.op)) t.operands
  else if t.op = Config.opTxEncodeAck then byteOperand t.op .txEncodeAck t.operands
  else if t.op = Config.opChecksum then bytesOperand t.op .checksum t.operands
  else .ok (.undefinedOp t.op)

/-- An escape pair (R63, R64): the three canonical pairs have rows of their own. -/
def decodePair (x : Byte) : Instr :=
  if x = Config.header &&& Config.escMask then .wireEscHeader
  else if x = Config.trailer &&& Config.escMask then .wireEscTrailer
  else if x = Config.esc &&& Config.escMask then .wireEscEsc
  else .wireEscAny x

/-- A single wire byte: the three special bytes have rows of their own (R63); any other reaches the RX
unit as a one-byte chunk (R110; log 18). -/
def decodeWireByte (b : Byte) : Instr :=
  if b = Config.header then .wireHeader
  else if b = Config.trailer then .wireTrailer
  else if b = Config.esc then .wireEsc
  else .rxParse [b]

/-- Bytes on the RX input stream: one wire unit (R70), or else a chunk for RX_PARSE (R40(a); log 18). -/
def decodeWire (chunk : List Byte) : Instr :=
  match chunk with
  | [b] => decodeWireByte b
  | [b, x] => if b = Config.esc then decodePair x else .rxParse chunk
  | _ => .rxParse chunk

/-- A type byte (R65). -/
def decodeType (value : Byte) : Instr :=
  if value = Config.typeAck then .typeAck
  else if value = Config.typeCmd1 then .typeCommand1
  else if value = Config.typeCmd2 then .typeCommand2
  else .typeUnknown value

/-- The decoder: total on every request. Only a transaction can be rejected, by name. -/
def decode : Request → Except DecodeError Instr
  | .port t => decodePort t
  | .wire chunk => .ok (decodeWire chunk)
  | .typeByte value => .ok (decodeType value)

/-- A byte sequence passed whole, with its explicit length (R82). -/
def bytesOf (data : List Byte) : Operand := .bytes data.length data

/-- The encoder: the words of an instruction, from the same tables (R63, R65, R80). -/
def encode : Instr → Request
  | .rxParse chunk => .port ⟨Config.opRxParse, [bytesOf chunk]⟩
  | .rxReset => .port ⟨Config.opRxReset, []⟩
  | .viewRead => .port ⟨Config.opViewRead, []⟩
  | .txEncodeCmd s seq body => .port ⟨Config.opTxEncodeCmd ++ s, [.byte seq, bytesOf body]⟩
  | .txEncodeAck seq => .port ⟨Config.opTxEncodeAck, [.byte seq]⟩
  | .checksum bytes => .port ⟨Config.opChecksum, [bytesOf bytes]⟩
  | .undefinedOp op => .port ⟨op, []⟩
  | .wireHeader => .wire [Config.header]
  | .wireTrailer => .wire [Config.trailer]
  | .wireEsc => .wire [Config.esc]
  | .wireEscHeader => .wire [Config.esc, Config.header &&& Config.escMask]
  | .wireEscTrailer => .wire [Config.esc, Config.trailer &&& Config.escMask]
  | .wireEscEsc => .wire [Config.esc, Config.esc &&& Config.escMask]
  | .wireEscAny x => .wire [Config.esc, x]
  | .typeAck => .typeByte Config.typeAck
  | .typeCommand1 => .typeByte Config.typeCmd1
  | .typeCommand2 => .typeByte Config.typeCmd2
  | .typeUnknown raw => .typeByte raw

/-- Operands of zeros for an op (the table gives operands no bits): the byte 0 where the op takes a
byte, the sequence of length 0 where it takes a sequence. -/
def zeroOperands (op : Byte) : List Operand :=
  if op = Config.opRxParse then [.bytes 0 []]
  else if opHigh op = Config.opTxEncodeCmd then [.byte 0, .bytes 0 []]
  else if op = Config.opTxEncodeAck then [.byte 0]
  else if op = Config.opChecksum then [.bytes 0 []]
  else []

/-- The request an 8-bit word of the opcode table stands for. The table's formats share the 8-bit
words; the order is the model's (log 6): a defined op, else a special wire byte, else a known type
byte, else an undefined op. -/
def tableByteRequest (b : Byte) : Request :=
  if Config.definedOps.contains b then .port ⟨b, zeroOperands b⟩
  else if b = Config.header ∨ b = Config.trailer ∨ b = Config.esc then .wire [b]
  else if Config.knownTypes.contains b then .typeByte b
  else .port ⟨b, zeroOperands b⟩

/-- The request a word of the opcode table stands for: 8 bits, or a 16-bit wire pair whose escape byte
is bits 15 to 8 and is first on the wire (log 5). -/
def tableRequest (nbits w : Nat) : Option Request :=
  if nbits = 8 then some (tableByteRequest (BitVec.ofNat 8 w))
  else if nbits = 16 then
    if BitVec.ofNat 8 (w / 256) = Config.esc then
      some (.wire [BitVec.ofNat 8 (w / 256), BitVec.ofNat 8 w])
    else none
  else none

/-- A decoding as an option. -/
def decoded (q : Request) : Option Instr :=
  match decode q with
  | .ok i => some i
  | .error _ => none

/-- The instruction the decoder reads from a word of the opcode table. -/
def decodeTableWord (nbits w : Nat) : Option Instr :=
  match tableRequest nbits w with
  | some q => decoded q
  | none => none

end Sys2Proof
end

