-- ==== Sys2Proof/Machine/State.lean ====
section
/-! DEFINITION. The state of the XM5 protocol framer (spec/10_state.md), its outcome records, and its
state after reset. -/

namespace Sys2Proof.Machine

/-- The phases of the RX unit (spec/00_scope.md R13). -/
inductive Phase where
  | awaitingHeader
  | readingTypeAndSeq
  | readingLength
  | readingPayloadAndTrailer
  | complete
deriving DecidableEq, Repr

/-- The classification of a type byte (R12, R65, R151). The byte itself is `MessageView.rawType`. -/
inductive Kind where
  | ack
  | command1
  | command2
  | unknown
deriving DecidableEq, Repr

/-- Checksum validity (R32): `expected` is recomputed by the block, `got` is received (R152). -/
inductive Check where
  | ok (actual : Byte)
  | err (expected got : Byte)
deriving DecidableEq, Repr

/-- The Message view of a completed frame (R32). The trailer is not part of it. -/
structure MessageView where
  kind : Kind
  rawType : Byte
  seq : Byte
  payload : List Byte
  chk : Check
deriving DecidableEq, Repr

/-- The error kinds of RX_PARSE: the source names one (R31). -/
inductive RxError where
  | noMessageHeader
deriving DecidableEq, Repr

/-- What an operation that has its step returns on the interface (R31, R33). -/
inductive OpOutcome where
  /-- RX_PARSE: a frame completed after `consumed` bytes of this chunk (R31, R119). -/
  | ready (view : MessageView) (consumed : Nat)
  /-- RX_PARSE: the chunk was exhausted first; `needed` unescaped bytes are missing (R31, R117). -/
  | incomplete (needed : Option Nat)
  /-- RX_PARSE: the byte at AwaitingHeader was no header (R31, R201). -/
  | error (kind : RxError) (consumed : Nat)
  /-- RX_RESET: no outcome value (R33). -/
  | resetDone
  /-- VIEW_READ: the view of the retained frame (R33). -/
  | view (view : MessageView)
  /-- TX_ENCODE_CMD, TX_ENCODE_ACK: the frame's wire bytes (R33). -/
  | frame (wire : List Byte)
  /-- CHECKSUM: the sum (R33). -/
  | checksum (sum : Byte)
deriving DecidableEq, Repr

/-- The reasons the `fault` register can hold (spec/60_exceptions.md R205). -/
inductive ModelFault where
  /-- RX_PARSE: a frame declares more bytes than BUF_CAP (R115). -/
  | rxOverflow
  /-- TX_ENCODE_CMD: the body is longer than TX_MAX_BODY (R173). -/
  | txBodyTooLong
  /-- VIEW_READ: no frame is retained (R157). -/
  | staleView
deriving DecidableEq, Repr

/-- Why a step stops. -/
inductive Fault where
  /-- Raised by every operation issued once `fault` holds a reason: it has no step (R206). Safe: the
  model stops where the spec gives no behaviour. -/
  | noStep (reason : ModelFault)
deriving DecidableEq, Repr

/-- Why a request has no meaning. -/
inductive Refusal where
  /-- Raised by an arm of `exec` whose instruction has no meaning yet; no arm raises it. Safe. -/
  | notModelled (mnemonic : String)
  /-- Raised by a transaction with an undefined operation code (R81). Safe: the spec refuses it too. -/
  | undefinedOp (op : Byte)
  /-- Raised by `step` for a transaction whose operands are not those of its op (log 2). Safe. -/
  | malformedTransaction (why : DecodeError)
deriving DecidableEq, Repr

/-- The RX unit's registers (R20). `buf` holds the `len` valid cells, index 0 first; the register `len`
is its length (log 7). `esc` is the pending-escape flag. -/
structure RxUnit where
  buf : List Byte
  esc : Bool
deriving DecidableEq, Repr

/-- The state. `rx` and `fault` are the state the spec gives the block (R20); `params` are its build
parameters, which no operation writes (R6, R29); `pending`, `outcomes` and `txOut` are the interface:
the requests issued and not yet run, the outcomes returned and the TX output stream, each oldest
first (log 1, log 12). The TX unit and the CHK primitive hold no state (R20). -/
structure State where
  rx : RxUnit
  fault : Option ModelFault
  params : Config.Params
  pending : List Request
  outcomes : List OpOutcome
  txOut : List Byte
deriving DecidableEq, Repr

/-- The RX unit at idle (R12, R35). -/
def RxUnit.idle : RxUnit := { buf := [], esc := false }

/-- The state after power-up of a block built with the parameters `p` (R35, R231). -/
def State.resetWith (p : Config.Params) : State :=
  { rx := RxUnit.idle, fault := none, params := p, pending := [], outcomes := [], txOut := [] }

/-- The state after reset (R35, R231) of the block with `Config.paramsAtReset` (log 8). -/
def State.reset : State := State.resetWith Config.paramsAtReset

end Sys2Proof.Machine
end

