-- ==== Sys2Proof/Machine/Operands.lean ====
section
/-! DEFINITION. Operand and field assembly: the length field both ways, the sequence byte, the type
byte, escaping and unescaping, and the shared checksum. -/

namespace Sys2Proof.Machine

/-- The declared length from its four bytes, most significant first (spec/10_state.md R24). -/
def lengthOf (b3 b4 b5 b6 : Byte) : Word32 :=
  b3.setWidth 32 <<< 24 ||| b4.setWidth 32 <<< 16 ||| b5.setWidth 32 <<< 8 ||| b6.setWidth 32

/-- The four length bytes of a body of `n` bytes, most significant first (R67, R170). -/
def lengthBytes (n : Word32) : List Byte :=
  [n.extractLsb' 24 8, n.extractLsb' 16 8, n.extractLsb' 8 8, n.extractLsb' 0 8]

/-- The sequence byte of an Ack frame: `(1 - seq) mod 256` (R66, R171). -/
def ackSeq (seq : Byte) : Byte := 1 - seq

/-- The type byte of a command frame: Command1 for `s = 0`, Command2 for `s = 1` (R172). -/
def cmdType (s : BitVec 1) : Byte := if s = 0 then Config.typeCmd1 else Config.typeCmd2

/-- A special byte: one equal to HEADER, TRAILER or ESC (R12). -/
def special (b : Byte) : Bool := b = Config.header || b = Config.trailer || b = Config.esc

/-- The wire bytes of one core byte (R63). -/
def escape (b : Byte) : List Byte :=
  if special b then [Config.esc, b &&& Config.escMask] else [b]

/-- The core byte that the wire byte after an escape stands for (R64). -/
def unescape (x : Byte) : Byte := x ||| Config.unescOr

/-- CHK: the 1-byte wrapping sum (spec/40_checksum.md R100), the block's only checksum (R101). -/
def checksum (bytes : List Byte) : Byte := bytes.foldl (fun acc b => acc + b) 0

/-- The kind of a type byte (R151). -/
def classify (t : Byte) : Kind :=
  if t = Config.typeAck then .ack
  else if t = Config.typeCmd1 then .command1
  else if t = Config.typeCmd2 then .command2
  else .unknown

end Sys2Proof.Machine
end

