-- ==== Sys2Proof/Machine/Flags.lean ====
section
/-! DEFINITION. What is read off the RX state: `len`, the declared length, the frame total, completion,
the phase, the still-needed count, the capacity check, and the validity of a checksum. -/

namespace Sys2Proof.Machine

/-- The register `len` (R22): the number of valid cells. -/
def RxUnit.len (r : RxUnit) : Nat := r.buf.length

/-- `buf[i]` (R10): a cell below `len` holds its byte, any other an unspecified value (R21). -/
def RxUnit.cell (r : RxUnit) (i : Nat) : Byte :=
  match r.buf[i]? with
  | some b => b
  | none => Config.unspecifiedCell i

/-- The declared payload length `L`; none while `len < 7`, where it is undefined and never read (R24). -/
def RxUnit.declared (r : RxUnit) : Option Word32 :=
  match r.buf with
  | _ :: _ :: _ :: b3 :: b4 :: b5 :: b6 :: _ => some (lengthOf b3 b4 b5 b6)
  | _ => none

/-- The frame total `T = 7 + L + 2`, an exact natural (R7, R25). -/
def totalOf (l : Word32) : Nat := Config.hdrLen + l.toNat + Config.trlLen

/-- The frame total of the frame in progress, once its length field is complete (R25). -/
def RxUnit.total (r : RxUnit) : Option Nat := r.declared.map totalOf

/-- `complete`: `len ≥ 7` and `len = T` (R25). -/
def RxUnit.complete (r : RxUnit) : Bool := r.total = some r.len

/-- Unescaped bytes still missing, `T - len`, known once the length field is complete (R117, R120). -/
def RxUnit.needed (r : RxUnit) : Option Nat := r.total.map (fun t => t - r.len)

/-- The phase (R13); Complete comes first, as it holds at `len = T`. -/
def RxUnit.phase (r : RxUnit) : Phase :=
  if r.complete then .complete
  else if r.len = 0 then .awaitingHeader
  else if r.len ≤ 2 then .readingTypeAndSeq
  else if r.len ≤ 6 then .readingLength
  else .readingPayloadAndTrailer

/-- The kind of the frame in progress, once its type byte is in `buf[1]` (R151). -/
def RxUnit.kind (r : RxUnit) : Option Kind := (r.buf[1]?).map classify

/-- Whether a frame of `t` bytes fits the RX buffer: not `T > BUF_CAP` (R115). -/
def fits (c : Config.Capacity) (t : Nat) : Bool :=
  match c with
  | .unbounded => true
  | .bytes n _ => t ≤ n

/-- R115: the frame in progress declares more bytes than the RX buffer holds. -/
def RxUnit.tooLong (p : Config.Params) (r : RxUnit) : Bool :=
  match r.total with
  | some t => !(fits p.bufCap t)
  | none => false

/-- Whether a wire byte announces an escape (R110, R112): an ESC byte with no escape pending, or any
ESC byte when `ESC_AFTER_ESC` is Rearm. -/
def announcesEscape (p : Config.Params) (esc : Bool) (b : Byte) : Bool :=
  b = Config.esc && (esc = false || p.escAfterEsc = .rearm)

/-- Checksum validity (R150, R152). -/
def checkOf (expected got : Byte) : Check :=
  if expected = got then .ok got else .err expected got

end Sys2Proof.Machine
end

