-- ==== Sys2Proof/Machine/Ops.lean ====
section
/-! DEFINITION. The shared operations: recording a model fault, running an operation, the unit an
instruction belongs to, the RX unit's byte step and parse loop, the Message view, and frame assembly. -/

namespace Sys2Proof.Machine

/-- `raise Fault(reason)` (R10, R205): the reason is recorded and the operation ends; what it did before
stays, and it returns no outcome. The block has no other exception entry, and nothing returns from
this one (R200, R209, R210). -/
def raiseFault (reason : ModelFault) (s : State) : State := { s with fault := some reason }

/-- `return Outcome(...)` (R10): the outcome on the interface. -/
def deliver (o : OpOutcome) (s : State) : State := { s with outcomes := s.outcomes ++ [o] }

/-- The end of an operation: its outcome, or the model fault it raised. -/
def conclude (res : Except ModelFault OpOutcome) (s : State) : State :=
  match res with
  | .ok o => deliver o s
  | .error reason => raiseFault reason s

/-- Run one operation: no step once a fault is recorded (R206), before every other effect (R208(e));
else its effects and its end. -/
def operate (op : State → State × Except ModelFault OpOutcome) (s : State) :
    Host.Outcome State Fault Refusal :=
  match s.fault with
  | some reason => .fault (.noStep reason)
  | none => .next (conclude (op s).2 (op s).1)

/-- The operations and wire units of the RX unit (R213): all but those of the TX unit, of CHK and the
undefined ones. -/
def rxInstr : Instr → Bool
  | .txEncodeCmd _ _ _ => false
  | .txEncodeAck _ => false
  | .checksum _ => false
  | .undefinedOp _ => false
  | _ => true

/-- The operations of the TX unit and the CHK primitive (R213). -/
def txChkInstr : Instr → Bool
  | .txEncodeCmd _ _ _ => true
  | .txEncodeAck _ => true
  | .checksum _ => true
  | _ => false

/-- What RX_BYTE returns (R110): Continue, Error, Ready, or the fault RxOverflow. -/
inductive ByteResult where
  | more
  | error
  | ready
  | overflow
deriving DecidableEq, Repr

/-- Stages 3 and 4 of RX_BYTE: append (R114), capacity right after the fourth length byte (R115),
completion (R116). -/
def rxAppend (p : Config.Params) (v : Byte) (r : RxUnit) : RxUnit × ByteResult :=
  let r' : RxUnit := { r with buf := r.buf ++ [v] }
  if r'.len = Config.hdrLen ∧ r'.tooLong p = true then (r', .overflow)
  else if r'.complete then (r', .ready)
  else (r', .more)

/-- Stages 2 to 4 of RX_BYTE on an unescaped value: the header check at `len = 0` (R113), else append. -/
def rxValue (p : Config.Params) (v : Byte) (r : RxUnit) : RxUnit × ByteResult :=
  if r.len = 0 then
    if v = Config.header then ({ r with buf := [v] }, .more) else (r, .error)
  else rxAppend p v r

/-- RX_BYTE(b): consume one wire byte (R110). Stage 1 is the escape (R112). -/
def rxByte (p : Config.Params) (b : Byte) (r : RxUnit) : RxUnit × ByteResult :=
  if announcesEscape p r.esc b then ({ r with esc := true }, .more)
  else rxValue p (if r.esc then unescape b else b) { r with esc := false }

/-- The call-start clear (R111): a retained frame is dropped. -/
def callStartClear (r : RxUnit) : RxUnit := if r.complete then { r with buf := [] } else r

/-- VIEW() (R150): the Message view of the frame in `buf`; `T = len`. -/
def viewOf (r : RxUnit) : MessageView :=
  { kind := classify (r.cell 1)
    rawType := r.cell 1
    seq := r.cell 2
    payload := (r.buf.take (r.len - 2)).drop 7
    chk := checkOf (checksum ((r.buf.take (r.len - 2)).drop 1)) (r.cell (r.len - 2)) }

/-- The loop of RX_PARSE (R118) with `i` bytes of the chunk used: stop at the first Ready, Error or
fault (R116), else report Incomplete when the chunk is exhausted (R117). -/
def rxLoop (p : Config.Params) : List Byte → Nat → RxUnit → RxUnit × Except ModelFault OpOutcome
  | [], _, r => (r, .ok (.incomplete r.needed))
  | b :: rest, i, r =>
    match rxByte p b r with
    | (r', .more) => rxLoop p rest (i + 1) r'
    | (r', .ready) => (r', .ok (.ready (viewOf r') (i + 1)))
    | (r', .error) => (r', .ok (.error .noMessageHeader (i + 1)))
    | (r', .overflow) => (r', .error .rxOverflow)

/-- RX_PARSE on the RX unit alone (R118): the call-start clear, then the loop. -/
def rxParse (p : Config.Params) (chunk : List Byte) (r : RxUnit) :
    RxUnit × Except ModelFault OpOutcome :=
  rxLoop p chunk 0 (callStartClear r)

/-- RX_PARSE(chunk) as an operation on the state (R118). -/
def rxParseOp (chunk : List Byte) (s : State) : State × Except ModelFault OpOutcome :=
  ({ s with rx := (rxParse s.params chunk s.rx).1 }, (rxParse s.params chunk s.rx).2)

/-- RX_RESET as an operation on the state (R230): `len` and `esc` become 0, the cells unspecified. -/
def rxResetOp (s : State) : State × Except ModelFault OpOutcome :=
  ({ s with rx := RxUnit.idle }, .ok .resetDone)

/-- VIEW_READ as an operation on the state (R157): the view of the retained frame, or StaleView. -/
def viewReadOp (s : State) : State × Except ModelFault OpOutcome :=
  (s, if s.rx.complete then .ok (.view (viewOf s.rx)) else .error .staleView)

/-- CHECKSUM as an operation on the state (R100): it writes nothing. -/
def checksumOp (bytes : List Byte) (s : State) : State × Except ModelFault OpOutcome :=
  (s, .ok (.checksum (checksum bytes)))

/-- The core of a frame (R61, R170): type, seq, length, body, then the checksum of these (R174). -/
def coreOf (typeByte seqByte : Byte) (body : List Byte) : List Byte :=
  let fields := [typeByte, seqByte] ++ lengthBytes (BitVec.ofNat 32 body.length) ++ body
  fields ++ [checksum fields]

/-- The wire form of a frame (R62, R170): a literal header, the escaped core, a literal trailer. -/
def wireOf (core : List Byte) : List Byte :=
  [Config.header] ++ core.flatMap escape ++ [Config.trailer]

/-- FRAME(type_byte, seq_byte, body) (R170): the body limit before anything is emitted (R173, R208(d)),
else the whole frame appended to the TX output stream (R42) and returned (R33). -/
def frameOp (typeByte seqByte : Byte) (body : List Byte) (s : State) :
    State × Except ModelFault OpOutcome :=
  if s.params.txMaxBody.val < body.length then (s, .error .txBodyTooLong)
  else
    let wire := wireOf (coreOf typeByte seqByte body)
    ({ s with txOut := s.txOut ++ wire }, .ok (.frame wire))

end Sys2Proof.Machine
end

