-- ==== Sys2Proof/Machine/Chk.lean ====
section
/-! DEFINITION. The CHK primitive's operation, and the transactions that name no operation. -/

namespace Sys2Proof.Machine

/-- CHECKSUM(bytes) (spec/40_checksum.md R100): a pure function. -/
def execChecksum (bytes : List Byte) (s : State) : Host.Outcome State Fault Refusal :=
  operate (checksumOp bytes) s

/-- A transaction with an undefined op (spec/30_encoding.md R81): no meaning and no step; the refusal is
recorded as the outcome of the step. It precedes every other effect (R208(e); log 11). -/
def execUndefinedOp (op : Byte) (_s : State) : Host.Outcome State Fault Refusal :=
  .refused (.undefinedOp op)

end Sys2Proof.Machine
end

