-- ==== Sys2Proof/Machine/Rx.lean ====
section
/-! DEFINITION. The RX unit's operations: RX_PARSE, RX_RESET, VIEW_READ. -/

namespace Sys2Proof.Machine

/-- RX_PARSE(chunk) (spec/41_rx_parser.md R118). -/
def execRxParse (chunk : List Byte) (s : State) : Host.Outcome State Fault Refusal :=
  operate (rxParseOp chunk) s

/-- RX_RESET (spec/70_reset_and_hazards.md R230): a partial frame, a pending escape or a retained frame
is discarded. -/
def execRxReset (s : State) : Host.Outcome State Fault Refusal :=
  operate rxResetOp s

/-- VIEW_READ (spec/42_rx_message.md R157): the view of the retained frame, or the fault StaleView. -/
def execViewRead (s : State) : Host.Outcome State Fault Refusal :=
  operate viewReadOp s

end Sys2Proof.Machine
end

