-- ==== Sys2Proof/Machine/Tx.lean ====
section
/-! DEFINITION. The TX unit's operations: TX_ENCODE_CMD and TX_ENCODE_ACK. -/

namespace Sys2Proof.Machine

/-- TX_ENCODE_CMD(s, seq, body) (spec/43_tx_encoder.md R175). -/
def execTxEncodeCmd (b : BitVec 1) (seq : Byte) (body : List Byte) (s : State) :
    Host.Outcome State Fault Refusal :=
  operate (frameOp (cmdType b) seq body) s

/-- TX_ENCODE_ACK(seq) (spec/43_tx_encoder.md R176): `seq` is that of the frame acknowledged. -/
def execTxEncodeAck (seq : Byte) (s : State) : Host.Outcome State Fault Refusal :=
  operate (frameOp Config.typeAck (ackSeq seq) []) s

end Sys2Proof.Machine
end

