-- ==== Sys2Proof/Machine/Wire.lean ====
section
/-! DEFINITION. The wire units that the opcode table lists (formats wire-byte and wire-pair) and the type
bytes (format type-byte). A byte reaches the RX unit in no other way than by RX_PARSE (R40, R110), so
each is an RX_PARSE of its wire bytes (log 3, log 4). -/

namespace Sys2Proof.Machine

/-- WIRE.HEADER: the RX unit receives a literal `3e` (R113; inside a frame it is data, R71(e)). -/
def execWireHeader (s : State) : Host.Outcome State Fault Refusal :=
  operate (rxParseOp [Config.header]) s

/-- WIRE.TRAILER: the RX unit receives a literal `3c` (R69: not checked; R113(b) at AwaitingHeader). -/
def execWireTrailer (s : State) : Host.Outcome State Fault Refusal :=
  operate (rxParseOp [Config.trailer]) s

/-- WIRE.ESC: the RX unit receives an ESC byte (R112). -/
def execWireEsc (s : State) : Host.Outcome State Fault Refusal :=
  operate (rxParseOp [Config.esc]) s

/-- WIRE.ESC_HEADER: the RX unit receives the canonical pair `3d 2e` (R63, R64). -/
def execWireEscHeader (s : State) : Host.Outcome State Fault Refusal :=
  operate (rxParseOp (escape Config.header)) s

/-- WIRE.ESC_TRAILER: the RX unit receives the canonical pair `3d 2c` (R63, R64). -/
def execWireEscTrailer (s : State) : Host.Outcome State Fault Refusal :=
  operate (rxParseOp (escape Config.trailer)) s

/-- WIRE.ESC_ESC: the RX unit receives the canonical pair `3d 2d` (R63, R64). -/
def execWireEscEsc (s : State) : Host.Outcome State Fault Refusal :=
  operate (rxParseOp (escape Config.esc)) s

/-- WIRE.ESC_ANY: the RX unit receives a pair `3d x` (R64, R71(c)); `x = 3d` depends on `ESC_AFTER_ESC`
(R112(b)). -/
def execWireEscAny (x : Byte) (s : State) : Host.Outcome State Fault Refusal :=
  operate (rxParseOp [Config.esc, x]) s

/-- TYPE.ACK: the RX unit receives the type byte `01` in its wire form (R65, R114). -/
def execTypeAck (s : State) : Host.Outcome State Fault Refusal :=
  operate (rxParseOp (escape Config.typeAck)) s

/-- TYPE.COMMAND1: the RX unit receives the type byte `0c` in its wire form (R65, R114). -/
def execTypeCommand1 (s : State) : Host.Outcome State Fault Refusal :=
  operate (rxParseOp (escape Config.typeCmd1)) s

/-- TYPE.COMMAND2: the RX unit receives the type byte `0e` in its wire form (R65, R114). -/
def execTypeCommand2 (s : State) : Host.Outcome State Fault Refusal :=
  operate (rxParseOp (escape Config.typeCmd2)) s

/-- TYPE.UNKNOWN: the RX unit receives any other type byte in its wire form; it is accepted and reported
as Unknown (R71(b), R151). -/
def execTypeUnknown (raw : Byte) (s : State) : Host.Outcome State Fault Refusal :=
  operate (rxParseOp (escape raw)) s

end Sys2Proof.Machine
end

