-- ==== Sys2Proof/Machine/Dispatch.lean ====
section
/-! DEFINITION. The dispatch: one arm per constructor of `Instr`. -/

namespace Sys2Proof.Machine

def exec (i : Instr) (s : State) : Host.Outcome State Fault Refusal :=
  match i with
  | .rxParse chunk => Sys2Proof.Machine.execRxParse chunk s
  | .rxReset => Sys2Proof.Machine.execRxReset s
  | .viewRead => Sys2Proof.Machine.execViewRead s
  | .txEncodeCmd b seq body => Sys2Proof.Machine.execTxEncodeCmd b seq body s
  | .txEncodeAck seq => Sys2Proof.Machine.execTxEncodeAck seq s
  | .checksum bytes => Sys2Proof.Machine.execChecksum bytes s
  | .undefinedOp op => Sys2Proof.Machine.execUndefinedOp op s
  | .wireHeader => Sys2Proof.Machine.execWireHeader s
  | .wireTrailer => Sys2Proof.Machine.execWireTrailer s
  | .wireEsc => Sys2Proof.Machine.execWireEsc s
  | .wireEscHeader => Sys2Proof.Machine.execWireEscHeader s
  | .wireEscTrailer => Sys2Proof.Machine.execWireEscTrailer s
  | .wireEscEsc => Sys2Proof.Machine.execWireEscEsc s
  | .wireEscAny x => Sys2Proof.Machine.execWireEscAny x s
  | .typeAck => Sys2Proof.Machine.execTypeAck s
  | .typeCommand1 => Sys2Proof.Machine.execTypeCommand1 s
  | .typeCommand2 => Sys2Proof.Machine.execTypeCommand2 s
  | .typeUnknown raw => Sys2Proof.Machine.execTypeUnknown raw s

end Sys2Proof.Machine
end

