-- ==== Sys2Proof/Machine/Step.lean ====
section
/-! DEFINITION. One step: the oldest request the host has issued is decoded and run. -/

namespace Sys2Proof.Machine

/-- One step (R11, R48): take the oldest pending request, decode it, run it to completion. With nothing
pending the block is idle and holds its state (spec/60_exceptions.md R229; log 1). -/
def step (s : State) : Host.Outcome State Fault Refusal :=
  match s.pending with
  | [] => .next s
  | q :: rest =>
    match decode q with
    | .error why => .refused (.malformedTransaction why)
    | .ok i => exec i { s with pending := rest }

/-- `s` with a word of the opcode table issued as the request that the next step runs (log 1, log 6). A
word of a width that the table has no row of leaves `s` as it is. -/
def State.withFetchWord (s : State) (nbits w : Nat) : State :=
  match tableRequest nbits w with
  | some q => { s with pending := q :: s.pending }
  | none => s

end Sys2Proof.Machine
end

