-- ==== Sys2Proof/Machine/HostAgent.lean ====
section
/-! DEFINITION. The host beside the block: the program notation of spec/30_encoding.md R83 and the session
driver's duties of spec/60_exceptions.md R214, R215, R222 to R225 and spec/70_reset_and_hazards.md
R233, R234. The host's state is not block state (R30): none of it is in `State`, and `step` uses nothing
of this file (log 14). -/

namespace Sys2Proof.Machine

/-- The host's session state (R30, R223): the sequence counter `cur` and "awaiting acknowledgment". -/
structure Session where
  cur : Byte
  awaiting : Bool
deriving DecidableEq, Repr

/-- The session at its start (R223, R234 step 2). -/
def Session.start : Session := { cur := 0, awaiting := false }

/-- What the host does with an outcome (R224). -/
inductive HostAction where
  /-- Read more bytes from the transport. -/
  | readMore
  /-- Log and skip the frame: no Ack, no change of the counter. -/
  | logAndSkip
  /-- Issue TX_ENCODE_ACK with the received frame's sequence number, at once. -/
  | sendAck (seq : Byte)
  /-- Hand the payload to the Payload Decoder in the namespace of the kind; forward it only if the
  decode succeeds (outside the block, R4(b)). -/
  | decodePayload (kind : Kind) (payload : List Byte)
  /-- End the session with a reconnect-required error. -/
  | endSession
deriving DecidableEq, Repr

/-- The host's reaction to a Ready view (R224). -/
def Session.reactView (h : Session) (v : MessageView) : Session × List HostAction :=
  match v.kind, v.chk with
  | .unknown, _ => (h, [.logAndSkip])
  | _, .err _ _ => (h, [.logAndSkip])
  | .ack, .ok _ => ({ cur := v.seq, awaiting := false }, [])
  | _, .ok _ => (h, [.sendAck v.seq, .decodePayload v.kind v.payload])

/-- The host's reaction to an outcome (R224); outcomes that are not RX_PARSE's change nothing. -/
def Session.react (h : Session) : OpOutcome → Session × List HostAction
  | .incomplete _ => (h, [.readMore])
  | .ready v _ => h.reactView v
  | .error _ _ => (h, [.endSession])
  | _ => (h, [])

/-- The request for the Ack of a frame (R214, R223). -/
def ackRequest (seq : Byte) : Request := encode (.txEncodeAck seq)

/-- Sending a command (R222, R223): only when not awaiting an acknowledgment, with the current sequence
number; afterwards the host awaits one. `none`: the command waits. -/
def Session.sendCommand (h : Session) (b : BitVec 1) (body : List Byte) : Option (Session × Request) :=
  if h.awaiting then none
  else some ({ h with awaiting := true }, encode (.txEncodeCmd b h.cur body))

/-- Whether an outcome is one of the RX unit's. -/
def rxOutcome : OpOutcome → Bool
  | .ready _ _ => true
  | .incomplete _ => true
  | .error _ _ => true
  | .resetDone => true
  | .view _ => true
  | .frame _ => false
  | .checksum _ => false

/-- One operation as the host saw it: the instruction it issued and the outcome it got back. `got` is
`none` where no outcome came back: the operation recorded a model fault (R205), had no step (R206) or was
refused (R81). -/
structure Exchange where
  issued : Instr
  got : Option OpOutcome
deriving DecidableEq, Repr

/-- Issue one instruction: what the host gets back, and the state it leaves the block in. -/
def issue (i : Instr) (s : State) : Exchange × State :=
  match exec i s with
  | .next t => (⟨i, if t.fault = none then t.outcomes.getLast? else none⟩, t)
  | _ => (⟨i, none⟩, s)

/-- Issue instructions one after the other: the host's record of them, oldest first, and the last state. -/
def issueAll : List Instr → State → List Exchange × State
  | [], s => ([], s)
  | i :: rest, s =>
    ((issue i s).1 :: (issueAll rest (issue i s).2).1, (issueAll rest (issue i s).2).2)

/-- The last operation of the RX unit (R213) in the host's record, whatever came of it. -/
def lastRx (record : List Exchange) : Option Exchange :=
  (record.filter fun e => rxInstr e.issued).getLast?

/-- R215: VIEW_READ is issued only if the last RX operation was an RX_PARSE that returned Ready; no other
operation returns Ready (R31). -/
def viewDuty (record : List Exchange) : Bool :=
  match lastRx record with
  | some ⟨_, some (.ready _ _)⟩ => true
  | _ => false

/-- `ENC.INIT seq=v` (R83): TX_ENCODE_CMD of Command1 with the Init body. -/
def encInit (seq : Byte) : Request := encode (.txEncodeCmd 0 seq [0, 0])

/-- The block operations of the boot order (R234 steps 1 and 3; R225: Init at sequence 0). -/
def bootRequests : List Request := [encode .rxReset, encInit 0]

/-- `FEED b0 ... bk` (R83): one RX_PARSE for each byte. -/
def feed (bytes : List Byte) : List Request := bytes.map (fun b => encode (.rxParse [b]))

/-- The loop of `DRAIN`: the remainder of the chunk is parsed again after each Ready that left some. -/
def drainLoop : Nat → List Byte → State → Host.Outcome State Fault Refusal
  | 0, _, s => .next s
  | fuel + 1, c, s =>
    match exec (.rxParse c) s with
    | .next t =>
      match t.fault, t.outcomes.getLast? with
      | none, some (.ready _ n) => if n < c.length then drainLoop fuel (c.drop n) t else .next t
      | _, _ => .next t
    | .fault r => .fault r
    | .refused r => .refused r

/-- `DRAIN c` (R83): it stops at the first Incomplete, the first Error, or a Ready that used all of `c`.
Every Ready uses a byte, so `|c| + 1` rounds are enough. DESIGN CHOICE (log 21): for an empty `c` R83 says
both that it issues PARSE c and that DRAIN never issues `PARSE --`; here it issues the empty RX_PARSE,
which drops a retained frame (R111). -/
def drain (c : List Byte) (s : State) : Host.Outcome State Fault Refusal :=
  drainLoop (c.length + 1) c s

end Sys2Proof.Machine
end

