-- ==== Sys2Proof/Safety.lean ====
section
/-! DEFINITION. The terms claims use: the RX invariants of spec/10_state.md R26, a run that ends well
(spec/70_reset_and_hazards.md R235), and the wire stream that chunks are cut from
(spec/41_rx_parser.md R123). -/

namespace Sys2Proof.Machine

/-- The invariants of the RX state (R26(a) to R26(e), in order). -/
def RxUnit.Sound (p : Config.Params) (r : RxUnit) : Prop :=
  fits p.bufCap r.len = true ∧
  (∀ t, r.total = some t → r.len ≤ t) ∧
  (1 ≤ r.len → r.buf[0]? = some Config.header) ∧
  (r.complete = true → r.esc = false) ∧
  (r.len = 0 → r.complete = false)

/-- The invariant of the machine: the RX state is sound (R26), and while no fault is recorded the frame
in progress fits the buffer (R115). -/
def State.Inv (s : State) : Prop :=
  s.rx.Sound s.params ∧ (s.fault = none → s.rx.tooLong s.params = false)

/-- A run of the requests `qs` from `s` (R235), all of them issued before the first step. -/
def runRequests (qs : List Request) (s : State) : Host.Outcome State Fault Refusal :=
  Host.Core.run Sys2Proof.core qs.length { s with pending := qs }

/-- The run ends well: no fault is recorded at its end and no transaction was refused (R235). -/
def EndsWell (qs : List Request) (s : State) : Prop :=
  ∃ t : State, runRequests qs s = .next t ∧ t.fault = none

/-- The bytes of a chunk that lead the RX unit on with Continue each: the unit they leave, if all do. -/
def continues (p : Config.Params) : List Byte → RxUnit → Option RxUnit
  | [], r => some r
  | b :: rest, r =>
    match rxByte p b r with
    | (r', .more) => continues p rest r'
    | _ => none

/-- What a wire stream yields (R123): a Ready view or an Error. -/
inductive RxEvent where
  | ready (view : MessageView)
  | error
deriving DecidableEq, Repr

/-- The Ready views and Errors of a wire stream read byte by byte from the RX unit `r`, each with the
position just after the byte at which it occurs (R123). A model fault ends the stream. -/
def wireEvents (p : Config.Params) : List Byte → Nat → RxUnit → List (Nat × RxEvent)
  | [], _, _ => []
  | b :: rest, pos, r =>
    match rxByte p b (callStartClear r) with
    | (r', .more) => wireEvents p rest (pos + 1) r'
    | (r', .ready) => (pos + 1, .ready (viewOf r')) :: wireEvents p rest (pos + 1) r'
    | (r', .error) => (pos + 1, .error) :: wireEvents p rest (pos + 1) r'
    | (_, .overflow) => []

/-- The host of R123: it issues RX_PARSE with the next `n` bytes of the stream for each size `n`, and
after a Ready or an Error presents the unread bytes again. It answers the events with their positions
(the running sum of the consumed counts) and the bytes not yet consumed. A model fault ends the
stream. -/
def deliverChunks : List Nat → List Byte → Nat → State → List (Nat × RxEvent) × List Byte
  | [], stream, _, _ => ([], stream)
  | n :: sizes, stream, pos, s =>
    match exec (.rxParse (stream.take n)) s with
    | .next t =>
      match t.fault, t.outcomes.getLast? with
      | none, some (.ready v c) =>
        let after := deliverChunks sizes (stream.drop c) (pos + c) t
        ((pos + c, .ready v) :: after.1, after.2)
      | none, some (.error _ c) =>
        let after := deliverChunks sizes (stream.drop c) (pos + c) t
        ((pos + c, .error) :: after.1, after.2)
      | none, _ => deliverChunks sizes (stream.drop n) (pos + (stream.take n).length) t
      | some _, _ => ([], [])
    | _ => ([], stream)

/-- The value `v`, carried by `n` wire bytes, is what instruction `i` gives the RX unit inside a frame
with no escape pending: `v` is appended and all else is as R114 to R117 say. The premises are those
under which it raises no RxOverflow. -/
def Appends (i : Instr) (v : Byte) (n : Nat) (p : Config.Params) : Prop :=
  ∀ s : State, s.params = p → s.fault = none → s.rx.esc = false → s.rx.complete = false →
    1 ≤ s.rx.len → ¬(s.rx.len = 6 ∧ RxUnit.tooLong p ⟨s.rx.buf ++ [v], false⟩ = true) →
    exec i s = .next
      { s with
        rx := ⟨s.rx.buf ++ [v], false⟩
        outcomes := s.outcomes ++
          [if RxUnit.complete ⟨s.rx.buf ++ [v], false⟩ = true
            then .ready (viewOf ⟨s.rx.buf ++ [v], false⟩) n
            else .incomplete (RxUnit.needed ⟨s.rx.buf ++ [v], false⟩)] }

/-- Instruction `i`, carried by `n` wire bytes, meets the RX unit at AwaitingHeader with no escape
pending and is no header: Error, and the unit is idle (R113, R121). -/
def RejectedAtHeader (i : Instr) (n : Nat) (p : Config.Params) : Prop :=
  ∀ s : State, s.params = p → s.fault = none → s.rx = RxUnit.idle →
    exec i s = .next { s with outcomes := s.outcomes ++ [.error .noMessageHeader n] }

/-- Instruction `i` is taken as the header of a frame at AwaitingHeader (R71(f), R113). -/
def AcceptedAsHeader (i : Instr) (p : Config.Params) : Prop :=
  ∀ s : State, s.params = p → s.fault = none → s.rx = RxUnit.idle →
    exec i s = .next
      { s with rx := ⟨[Config.header], false⟩, outcomes := s.outcomes ++ [.incomplete none] }

/-- Instruction `i` gives the RX unit the type byte `v` of a frame whose header alone is stored: it is
`buf[1]`, and the frame in progress is of the kind `k` (R114, R151). -/
def SetsType (i : Instr) (v : Byte) (k : Kind) : Prop :=
  ∀ s : State, s.fault = none → s.rx = ⟨[Config.header], false⟩ →
    exec i s = .next
      { s with rx := ⟨[Config.header, v], false⟩, outcomes := s.outcomes ++ [.incomplete none] } ∧
    RxUnit.kind ⟨[Config.header, v], false⟩ = some k

end Sys2Proof.Machine
end

