-- ==== Sys2Proof/Certificates/Slice0/Obligations.lean ====
section
/-! DEFINITION. The statements for the provers. -/

open Sys2Proof Sys2Proof.Machine

/-- Decode and encode agree on every well-formed instruction, with every operand at every value
(spec/30_encoding.md R63, R65, R80). -/
def Obligations.DecodeEncodeAgree : Prop :=
  ∀ i : Instr, i.wellFormed = true → decode (encode i) = .ok i

/-- The decoder answers well-formed instructions only: an "any other value" row never takes a value that
another row of its format names (R63, R65, R80). -/
def Obligations.DecodedIsWellFormed : Prop :=
  ∀ (q : Request) (i : Instr), decode q = .ok i → i.wellFormed = true

/-- R81: exactly the op codes outside R80's table are undefined, and a transaction that carries one is
refused, whatever its operands and the state. That it is refused in a faulted state too, before the
no-step of R206, is the model's choice: R208(e) does not order the two (log 11). -/
def Obligations.UndefinedOpIsRefused : Prop :=
  (∀ t : Transaction, decode (.port t) = .ok (.undefinedOp t.op) ↔
    t.op ∉ [0x10#8, 0x11#8, 0x12#8, 0x20#8, 0x21#8, 0x28#8, 0x30#8]) ∧
  (∀ (op : Byte) (s : State), exec (.undefinedOp op) s = .refused (.undefinedOp op)) ∧
  (∀ (t : Transaction) (rest : List Request) (s : State),
    t.op ∉ [0x10#8, 0x11#8, 0x12#8, 0x20#8, 0x21#8, 0x28#8, 0x30#8] →
    s.pending = .port t :: rest → step s = .refused (.undefinedOp t.op))

/-- A few requests written out from R63, R65 and R80 decode to the instructions they stand for. -/
def Obligations.WrittenWordsDecode : Prop :=
  decode (.port ⟨0b00010000#8, [.bytes 2 [0x3e#8, 0x0c#8]]⟩) = .ok (.rxParse [0x3e#8, 0x0c#8]) ∧
  decode (.port ⟨0b00100001#8, [.byte 0x05#8, .bytes 1 [0x01#8]]⟩) =
    .ok (.txEncodeCmd 1 0x05#8 [0x01#8]) ∧
  decode (.wire [0x3d#8, 0x2e#8]) = .ok .wireEscHeader ∧
  decode (.typeByte 0x0e#8) = .ok .typeCommand2

/-- A step runs the decoded instruction: the oldest pending request is taken and the instruction it
decodes to is executed (R11, R48). -/
def Obligations.StepRunsTheDecodedInstruction : Prop :=
  ∀ (s : State) (q : Request) (rest : List Request) (i : Instr),
    s.pending = q :: rest → decode q = .ok i → step s = exec i { s with pending := rest }

/-- With no operation issued the block holds its state (R229: an idle unit holds its state unchanged
until its next operation). That a step then answers the same state is the model's choice (log 1). -/
def Obligations.IdleBlockHoldsItsState : Prop :=
  ∀ s : State, s.pending = [] → step s = .next s

/-- R35: after power-up, for every choice of the parameters, and after RX_RESET, `len` is 0, `esc` is 0,
`fault` is None, and every cell of `buf` is unspecified. -/
def Obligations.ResetValues : Prop :=
  (∀ p : Config.Params, (State.resetWith p).rx.len = 0 ∧ (State.resetWith p).rx.esc = false ∧
    (State.resetWith p).fault = none ∧
    ∀ i, (State.resetWith p).rx.cell i = Config.unspecifiedCell i) ∧
  (∃ p : Config.Params, State.reset = State.resetWith p) ∧
  (∀ s : State, s.fault = none → ∃ t, exec .rxReset s = .next t ∧ t.rx.len = 0 ∧ t.rx.esc = false ∧
    t.fault = none ∧ ∀ i, t.rx.cell i = Config.unspecifiedCell i)

/-- R230: RX_RESET returns the RX unit to idle with no outcome value and changes nothing else; in a
faulted state it has no step. -/
def Obligations.RxResetReturnsToIdle : Prop :=
  (∀ s : State, s.fault = none → exec .rxReset s =
    .next { s with rx := ⟨[], false⟩, outcomes := s.outcomes ++ [.resetDone] }) ∧
  (∀ (s : State) (f : ModelFault), s.fault = some f → exec .rxReset s = .fault (.noStep f))

/-- R206: once a fault is recorded no operation has a step, so the fault is never cleared, and a run from
a faulted state never ends well. -/
def Obligations.FaultIsSticky : Prop :=
  (∀ (i : Instr) (s : State) (f : ModelFault), s.fault = some f → (∀ op, i ≠ .undefinedOp op) →
    exec i s = .fault (.noStep f)) ∧
  (∀ (i : Instr) (s t : State), s.fault ≠ none → exec i s ≠ .next t) ∧
  (∀ (qs : List Request) (s : State), s.fault ≠ none → ¬EndsWell qs s)

/-- R236: a run from a faulted state, or one that contains a refused transaction, never ends well. -/
def Obligations.RefusedRunNeverEndsWell : Prop :=
  (∀ (qs : List Request) (s : State), s.fault ≠ none → ¬EndsWell qs s) ∧
  (∀ (qs : List Request) (s : State) (q : Request) (op : Byte), q ∈ qs →
    decode q = .ok (.undefinedOp op) → ¬EndsWell qs s)

/-- Every operation is available at all times, subject only to R206 (R211): with no fault recorded it
answers a next state, in which the parameters and the other requests are as before, and either one
outcome is appended, or a fault is recorded, no outcome is returned and nothing is emitted (R205). -/
def Obligations.EveryOperationHasAStep : Prop :=
  ∀ (i : Instr) (s : State), s.fault = none → (∀ op, i ≠ .undefinedOp op) →
    ∃ t, exec i s = .next t ∧ t.params = s.params ∧ t.pending = s.pending ∧
      ((t.fault = none ∧ ∃ o, t.outcomes = s.outcomes ++ [o]) ∨
       (t.fault ≠ none ∧ t.outcomes = s.outcomes ∧ t.txOut = s.txOut))

/-- R112: stage 1 of RX_BYTE. An ESC byte that announces an escape sets `esc` and appends nothing; any
other byte goes on, ORed with `0x10` when an escape is pending, with `esc` cleared. -/
def Obligations.EscapeStage : Prop :=
  ∀ (p : Config.Params) (b : Byte) (r : RxUnit),
    ((b = 0x3d#8 ∧ (r.esc = false ∨ p.escAfterEsc = .rearm)) →
      rxByte p b r = (⟨r.buf, true⟩, .more)) ∧
    (¬(b = 0x3d#8 ∧ (r.esc = false ∨ p.escAfterEsc = .rearm)) →
      rxByte p b r = rxValue p (if r.esc = true then b ||| 0x10#8 else b) ⟨r.buf, false⟩)

/-- R113: stage 2 of RX_BYTE. At `len = 0` a header is stored and `len` becomes 1; any other value is
Error, and the unit is idle. An escaped header passes, an escaped zero fails (corner case (c)). -/
def Obligations.HeaderCheck : Prop :=
  (∀ (p : Config.Params) (r : RxUnit), r.len = 0 → r.esc = false →
    rxValue p 0x3e#8 r = (⟨[0x3e#8], false⟩, .more)) ∧
  (∀ (p : Config.Params) (v : Byte) (r : RxUnit), r.len = 0 → r.esc = false → v ≠ 0x3e#8 →
    rxValue p v r = (RxUnit.idle, .error)) ∧
  (∀ p : Config.Params, rxByte p 0x2e#8 ⟨[], true⟩ = (⟨[0x3e#8], false⟩, .more) ∧
    rxByte p 0x00#8 ⟨[], true⟩ = (RxUnit.idle, .error))

/-- R114 to R116: stages 3 and 4 of RX_BYTE. The value is appended whatever it is; then the capacity
check right after the fourth length byte; then Ready exactly when `len` is `9 + L`. -/
def Obligations.AppendAndCompletion : Prop :=
  ∀ (p : Config.Params) (v : Byte) (buf : List Byte) (e : Bool), 1 ≤ buf.length →
    ∃ res, rxValue p v ⟨buf, e⟩ = (⟨buf ++ [v], e⟩, res) ∧
      (res = .overflow ↔ buf.length = 6 ∧ ∃ n h l, p.bufCap = .bytes n h ∧
        RxUnit.declared ⟨buf ++ [v], e⟩ = some l ∧ n < 9 + l.toNat) ∧
      (res = .ready ↔ ∃ l, RxUnit.declared ⟨buf ++ [v], e⟩ = some l ∧
        buf.length + 1 = 9 + l.toNat) ∧
      res ≠ .error

/-- R125: the RX phase sequence, row by row. -/
def Obligations.PhaseSequenceFollowsTheTable : Prop :=
  ∀ (p : Config.Params) (r : RxUnit), r.Sound p →
    (r.esc = false → rxByte p 0x3d#8 r = (⟨r.buf, true⟩, .more)) ∧
    (r.esc = true → p.escAfterEsc = .unescape →
      rxByte p 0x3d#8 r = rxValue p 0x3d#8 ⟨r.buf, false⟩) ∧
    (r.esc = true → p.escAfterEsc = .rearm → rxByte p 0x3d#8 r = (r, .more)) ∧
    (r.phase = .awaitingHeader → ∃ r', rxValue p 0x3e#8 r = (r', .more) ∧
      r'.phase = .readingTypeAndSeq ∧ r'.len = 1) ∧
    (r.phase = .awaitingHeader → ∀ v, v ≠ 0x3e#8 → rxValue p v r = (r, .error)) ∧
    (r.phase = .readingTypeAndSeq → ∀ v, ∃ r', rxValue p v r = (r', .more) ∧ r'.len = r.len + 1 ∧
      r'.phase = if r'.len = 3 then .readingLength else .readingTypeAndSeq) ∧
    (r.phase = .readingLength → ∀ v, ∃ r' res, rxValue p v r = (r', res) ∧ r'.len = r.len + 1 ∧
      r'.phase = (if r'.len = 7 then .readingPayloadAndTrailer else .readingLength) ∧
      res = if r'.len = 7 ∧ r'.tooLong p = true then .overflow else .more) ∧
    (r.phase = .readingPayloadAndTrailer → ∀ v, ∃ r' res t, r.total = some t ∧
      rxValue p v r = (r', res) ∧ r'.len = r.len + 1 ∧
      (res = if r'.len = t then .ready else .more) ∧
      r'.phase = if r'.len = t then .complete else .readingPayloadAndTrailer) ∧
    (r.phase = .complete → (callStartClear r).phase = .awaitingHeader)

/-- R118: what RX_PARSE answers on a fault-free state, by where its bytes lead after the call-start
clear: all of them on (Incomplete), or one of them to Ready, to Error or to the fault RxOverflow, in
which case no later byte is read. In a faulted state it has no step. -/
def Obligations.RxParseFollowsItsBytes : Prop :=
  (∀ s : State, s.fault = none →
    (∀ (chunk : List Byte) (r : RxUnit),
      continues s.params chunk (callStartClear s.rx) = some r →
      exec (.rxParse chunk) s =
        .next { s with rx := r, outcomes := s.outcomes ++ [.incomplete r.needed] }) ∧
    (∀ (before after : List Byte) (b : Byte) (r r' : RxUnit),
      continues s.params before (callStartClear s.rx) = some r →
      rxByte s.params b r = (r', .ready) →
      exec (.rxParse (before ++ b :: after)) s =
        .next { s with
          rx := r', outcomes := s.outcomes ++ [.ready (viewOf r') (before.length + 1)] }) ∧
    (∀ (before after : List Byte) (b : Byte) (r r' : RxUnit),
      continues s.params before (callStartClear s.rx) = some r →
      rxByte s.params b r = (r', .error) →
      exec (.rxParse (before ++ b :: after)) s =
        .next { s with
          rx := r', outcomes := s.outcomes ++ [.error .noMessageHeader (before.length + 1)] }) ∧
    (∀ (before after : List Byte) (b : Byte) (r r' : RxUnit),
      continues s.params before (callStartClear s.rx) = some r →
      rxByte s.params b r = (r', .overflow) →
      exec (.rxParse (before ++ b :: after)) s =
        .next { s with rx := r', fault := some .rxOverflow })) ∧
  (∀ (chunk : List Byte) (s : State) (f : ModelFault), s.fault = some f →
    exec (.rxParse chunk) s = .fault (.noStep f))

/-- R121, R209: an Error leaves the RX unit idle; `consumed` counts a byte of the chunk, and the bytes
after it were not read. -/
def Obligations.ErrorLeavesTheUnitIdle : Prop :=
  ∀ (chunk : List Byte) (s t : State) (k : RxError) (c : Nat),
    exec (.rxParse chunk) s = .next t → t.outcomes = s.outcomes ++ [.error k c] →
    t.rx = RxUnit.idle ∧ t.fault = none ∧ t.txOut = s.txOut ∧ 1 ≤ c ∧ c ≤ chunk.length ∧
    ∀ rest, exec (.rxParse (chunk.take c ++ rest)) s = .next t

/-- R122: after Ready the unread bytes of the chunk have had no effect: any other bytes in their place
give the same next state. -/
def Obligations.UnreadBytesHaveNoEffect : Prop :=
  ∀ (chunk : List Byte) (s t : State) (v : MessageView) (c : Nat),
    exec (.rxParse chunk) s = .next t → t.outcomes = s.outcomes ++ [.ready v c] →
    1 ≤ c ∧ c ≤ chunk.length ∧ t.rx.complete = true ∧ v = viewOf t.rx ∧
    ∀ rest, exec (.rxParse (chunk.take c ++ rest)) s = .next t

/-- R117: a call that reads every byte of its chunk without a Ready, an Error or a fault returns Incomplete;
`needed` is None while `len < 7`, else the exact count `9 + L - len`, which is at least 1. A call returns
Incomplete in no other way. -/
def Obligations.IncompleteReportsWhatIsNeeded : Prop :=
  (∀ (chunk : List Byte) (s : State) (r : RxUnit), s.Inv → s.fault = none →
    continues s.params chunk (callStartClear s.rx) = some r →
    ∃ needed, exec (.rxParse chunk) s =
        .next { s with rx := r, outcomes := s.outcomes ++ [.incomplete needed] } ∧
      r.complete = false ∧ (r.len < 7 → needed = none) ∧
      (7 ≤ r.len → ∃ l k, r.declared = some l ∧ needed = some k ∧ 1 ≤ k ∧
        r.len + k = 9 + l.toNat)) ∧
  (∀ (chunk : List Byte) (s t : State) (needed : Option Nat),
    exec (.rxParse chunk) s = .next t → t.outcomes = s.outcomes ++ [.incomplete needed] →
    continues s.params chunk (callStartClear s.rx) = some t.rx)

/-- R111 and R118(a): an empty RX_PARSE drops a retained frame, or changes nothing of the RX unit, and
reports Incomplete. -/
def Obligations.EmptyChunkDropsTheRetainedFrame : Prop :=
  ∀ s : State, s.fault = none →
    (s.rx.complete = true → exec (.rxParse []) s =
      .next { s with rx := ⟨[], s.rx.esc⟩, outcomes := s.outcomes ++ [.incomplete none] }) ∧
    (s.rx.complete = false → exec (.rxParse []) s =
      .next { s with outcomes := s.outcomes ++ [.incomplete s.rx.needed] })

/-- R123: chunk-split invariance. However a wire stream is cut into chunks, empty chunks allowed, the
Ready views and the Errors of a host that presents unread bytes again are the same, at the same
positions: those of the stream read byte by byte. -/
def Obligations.ChunkSplitInvariance : Prop :=
  ∀ (s : State) (stream : List Byte) (sizes : List Nat) (events : List (Nat × RxEvent)),
    s.fault = none → deliverChunks sizes stream 0 s = (events, []) →
    events = wireEvents s.params stream 0 s.rx

/-- R115, R205: RX_PARSE records RxOverflow only when a frame declares more than BUF_CAP: then `len`
is 7, the length byte that completed the field is in `buf`, no outcome is returned and nothing else
changes. It records no other fault, and with an unbounded buffer none. -/
def Obligations.OverflowIsRecordedAtTheLengthField : Prop :=
  ∀ (chunk : List Byte) (s t : State), exec (.rxParse chunk) s = .next t → t.fault ≠ none →
    t.fault = some .rxOverflow ∧ t.rx.len = 7 ∧ t.outcomes = s.outcomes ∧ t.txOut = s.txOut ∧
    ∃ n h l, s.params.bufCap = .bytes n h ∧ t.rx.declared = some l ∧ n < 9 + l.toNat

/-- R150: the Message view of a completed frame, field by field; the trailer is read by nothing. -/
def Obligations.ViewOfACompletedFrame : Prop :=
  ∀ (header ty sq b3 b4 b5 b6 got trailer : Byte) (payload : List Byte) (e : Bool),
    payload.length = (lengthOf b3 b4 b5 b6).toNat →
    let r : RxUnit := ⟨[header, ty, sq, b3, b4, b5, b6] ++ payload ++ [got, trailer], e⟩
    let expected := checksum ([ty, sq, b3, b4, b5, b6] ++ payload)
    r.complete = true ∧
    viewOf r =
      { kind := classify ty, rawType := ty, seq := sq, payload := payload,
        chk := if expected = got then .ok got else .err expected got }

/-- R151: the classification of a type byte. -/
def Obligations.TypeClassification : Prop :=
  classify 0x01#8 = .ack ∧ classify 0x0c#8 = .command1 ∧ classify 0x0e#8 = .command2 ∧
  (∀ t : Byte, t ≠ 0x01#8 → t ≠ 0x0c#8 → t ≠ 0x0e#8 → classify t = .unknown) ∧
  ∀ r : RxUnit, (viewOf r).kind = classify (r.cell 1) ∧ (viewOf r).rawType = r.cell 1

/-- R157: VIEW_READ returns the view of the retained frame and changes nothing else; with none retained
it records StaleView; in a faulted state it has no step. -/
def Obligations.ViewReadOnlyInItsWindow : Prop :=
  (∀ s : State, s.fault = none → s.rx.complete = true → exec .viewRead s =
    .next { s with outcomes := s.outcomes ++ [.view (viewOf s.rx)] }) ∧
  (∀ s : State, s.fault = none → s.rx.complete = false → exec .viewRead s =
    .next { s with fault := some .staleView }) ∧
  (∀ (s : State) (f : ModelFault), s.fault = some f → exec .viewRead s = .fault (.noStep f))

/-- R156, R240: after a Ready the retained frame gives the same view, as often as it is read; after the
next RX_PARSE, unless that records a fault or is itself Ready, and after RX_RESET, VIEW_READ records
StaleView. The empty RX_PARSE is such a next one. -/
def Obligations.RetainedFrameWindow : Prop :=
  ∀ (chunk : List Byte) (s t : State) (v : MessageView) (c : Nat),
    exec (.rxParse chunk) s = .next t → t.outcomes = s.outcomes ++ [.ready v c] →
    (∃ u, exec .viewRead t = .next u ∧ u.outcomes = t.outcomes ++ [.view v] ∧ u.rx = t.rx ∧
      ∃ w, exec .viewRead u = .next w ∧ w.outcomes = u.outcomes ++ [.view v] ∧ w.rx = t.rx) ∧
    (∀ (later : List Byte) (u : State), exec (.rxParse later) t = .next u → u.fault = none →
      (∀ v' c', u.outcomes ≠ t.outcomes ++ [.ready v' c']) →
      ∃ w, exec .viewRead u = .next w ∧ w.fault = some .staleView) ∧
    (∃ u, exec (.rxParse []) t = .next u ∧ u.fault = none ∧
      u.outcomes = t.outcomes ++ [.incomplete none]) ∧
    (∃ u w, exec .rxReset t = .next u ∧ exec .viewRead u = .next w ∧ w.fault = some .staleView)

/-- R158, on the frame as stored: a change of the type, the sequence number or one payload byte of a
valid frame leaves it complete and its checksum is reported as a mismatch with the received byte as
`got`; a change of a length byte changes the frame total. -/
def Obligations.SingleByteCorruptionIsReported : Prop :=
  ∀ (r : RxUnit) (c : Byte) (i : Nat) (v : Byte), r.complete = true → (viewOf r).chk = .ok c →
    i < r.len → r.buf[i]? ≠ some v →
    ((i = 1 ∨ i = 2 ∨ (7 ≤ i ∧ i < r.len - 2)) →
      RxUnit.complete ⟨r.buf.set i v, r.esc⟩ = true ∧
      ∃ c', c' ≠ c ∧ (viewOf ⟨r.buf.set i v, r.esc⟩).chk = .err c' c) ∧
    (3 ≤ i ∧ i ≤ 6 → RxUnit.total ⟨r.buf.set i v, r.esc⟩ ≠ r.total)

/-- R100: CHECKSUM returns the sum of its bytes mod 256 and changes no state. -/
def Obligations.ChecksumIsTheSumMod256 : Prop :=
  ∀ (bytes : List Byte) (s : State), s.fault = none →
    exec (.checksum bytes) s = .next
      { s with outcomes := s.outcomes ++
          [.checksum (BitVec.ofNat 8 ((bytes.map BitVec.toNat).sum % 256))] }

/-- R102: the laws of the checksum, (a) to (e). -/
def Obligations.ChecksumLaws : Prop :=
  (∀ s t : List Byte, checksum (s ++ t) = checksum s + checksum t) ∧
  (∀ s t : List Byte, s.Perm t → checksum s = checksum t) ∧
  (∀ (s t : List Byte) (a b : Byte),
    checksum (s ++ b :: t) - checksum (s ++ a :: t) = b - a ∧
    (a ≠ b → checksum (s ++ b :: t) ≠ checksum (s ++ a :: t))) ∧
  (∀ (s t u : List Byte) (a b : Byte),
    checksum (s ++ a :: t ++ b :: u) = checksum (s ++ b :: t ++ a :: u) ∧
    checksum (s ++ a :: t ++ b :: u) = checksum (s ++ (a + 1) :: t ++ (b - 1) :: u)) ∧
  ∀ k : Nat, checksum (List.replicate k 0#8) = 0#8

/-- R175, with R170 and R172 to R174: TX_ENCODE_CMD emits the header, the escaped core and the trailer
and changes nothing else; a body longer than TX_MAX_BODY records TxBodyTooLong and emits nothing; in a
faulted state it has no step. -/
def Obligations.TxEncodeCmdEmitsTheFrame : Prop :=
  ∀ (b : BitVec 1) (seq : Byte) (body : List Byte) (s : State),
    let n := BitVec.ofNat 32 body.length
    let fields := [if b = 0#1 then 0x0c#8 else 0x0e#8, seq, n.extractLsb' 24 8, n.extractLsb' 16 8,
      n.extractLsb' 8 8, n.extractLsb' 0 8] ++ body
    let wire := [0x3e#8] ++ (fields ++ [checksum fields]).flatMap escape ++ [0x3c#8]
    (s.fault = none → body.length ≤ s.params.txMaxBody.val →
      exec (.txEncodeCmd b seq body) s =
        .next { s with txOut := s.txOut ++ wire, outcomes := s.outcomes ++ [.frame wire] }) ∧
    (s.fault = none → s.params.txMaxBody.val < body.length →
      exec (.txEncodeCmd b seq body) s = .next { s with fault := some .txBodyTooLong }) ∧
    (∀ f, s.fault = some f → exec (.txEncodeCmd b seq body) s = .fault (.noStep f))

/-- R176, with R170 and R171: TX_ENCODE_ACK emits the frame of type `01` with sequence byte
`(1 - seq) mod 256` and an empty body, always, and changes nothing else. -/
def Obligations.TxEncodeAckEmitsTheFrame : Prop :=
  ∀ (seq : Byte) (s : State),
    let fields := [0x01#8, 1#8 - seq, 0x00#8, 0x00#8, 0x00#8, 0x00#8]
    let wire := [0x3e#8] ++ (fields ++ [checksum fields]).flatMap escape ++ [0x3c#8]
    (s.fault = none → exec (.txEncodeAck seq) s =
      .next { s with txOut := s.txOut ++ wire, outcomes := s.outcomes ++ [.frame wire] }) ∧
    (∀ f, s.fault = some f → exec (.txEncodeAck seq) s = .fault (.noStep f))

/-- R171: the sequence byte of an Ack is `(257 - seq) mod 256`, and the map is its own inverse. -/
def Obligations.AckSequenceByte : Prop :=
  (∀ seq : Byte, (ackSeq seq).toNat = (257 - seq.toNat) % 256 ∧ ackSeq (ackSeq seq) = seq) ∧
  ackSeq 0x00#8 = 0x01#8 ∧ ackSeq 0x01#8 = 0x00#8 ∧ ackSeq 0x02#8 = 0xff#8 ∧
  ackSeq 0xc5#8 = 0x3c#8 ∧ ackSeq 0xff#8 = 0x02#8

/-- R63, R64: exactly the three special bytes are escaped, each into its pair, and unescaping the second
byte of the pair gives the byte back; every byte after an escape is ORed with `0x10`. -/
def Obligations.EscapingRoundTrips : Prop :=
  escape 0x3e#8 = [0x3d#8, 0x2e#8] ∧ escape 0x3c#8 = [0x3d#8, 0x2c#8] ∧
  escape 0x3d#8 = [0x3d#8, 0x2d#8] ∧
  (∀ b : Byte, b ≠ 0x3e#8 → b ≠ 0x3c#8 → b ≠ 0x3d#8 → escape b = [b]) ∧
  (∀ x : Byte, unescape x = x ||| 0x10#8) ∧
  (∀ b x : Byte, escape b = [0x3d#8, x] → unescape x = b)

/-- R177: the frame emitted for a body of `n` bytes is `9 + n + k` bytes long, `k` the number of special
bytes in its core. -/
def Obligations.WireLength : Prop :=
  ∀ (ty sq : Byte) (body : List Byte),
    (wireOf (coreOf ty sq body)).length =
      9 + body.length + (coreOf ty sq body).countP special ∧
    (∀ (b : BitVec 1) (s t : State), exec (.txEncodeCmd b sq body) s = .next t → t.fault = none →
      (t.txOut.drop s.txOut.length).length =
        9 + body.length + (coreOf (cmdType b) sq body).countP special) ∧
    (∀ s t : State, exec (.txEncodeAck sq) s = .next t →
      (t.txOut.drop s.txOut.length).length =
        9 + (coreOf 0x01#8 (ackSeq sq) []).countP special)

/-- R179: what a TX operation emits starts with HEADER and ends with TRAILER; between them no HEADER or
TRAILER stands, every ESC is followed by the second byte of a canonical pair (so never by an ESC), and
the type byte is one of the three known ones. -/
def Obligations.CanonicalOutput : Prop :=
  ∀ (i : Instr) (s t : State) (w : List Byte),
    ((∃ b seq body, i = .txEncodeCmd b seq body) ∨ ∃ seq, i = .txEncodeAck seq) →
    exec i s = .next t → t.txOut = s.txOut ++ w → w ≠ [] →
    w[0]? = some 0x3e#8 ∧ w[w.length - 1]? = some 0x3c#8 ∧
    (w[1]? = some 0x01#8 ∨ w[1]? = some 0x0c#8 ∨ w[1]? = some 0x0e#8) ∧
    ∀ k, 1 ≤ k → k < w.length - 1 →
      w[k]? ≠ some 0x3e#8 ∧ w[k]? ≠ some 0x3c#8 ∧
      (w[k]? = some 0x3d#8 → k + 1 < w.length - 1 ∧
        (w[k + 1]? = some 0x2e#8 ∨ w[k + 1]? = some 0x2c#8 ∨ w[k + 1]? = some 0x2d#8))

/-- R178: round trip. The frame that TX_ENCODE_CMD or TX_ENCODE_ACK emits, if it fits BUF_CAP, is parsed
at idle to Ready with `consumed` its length and the fields it was made from, in one chunk and for every
split into chunks, whatever `ESC_AFTER_ESC` is. -/
def Obligations.EmittedFramesRoundTrip : Prop :=
  ∀ (i : Instr) (ty sq : Byte) (body : List Byte) (s t u : State),
    ((∃ b, i = .txEncodeCmd b sq body ∧ ty = if b = 0#1 then 0x0c#8 else 0x0e#8) ∨
      (∃ seq, i = .txEncodeAck seq ∧ ty = 0x01#8 ∧ sq = 1#8 - seq ∧ body = [])) →
    exec i s = .next t → t.fault = none →
    u.fault = none → u.rx = RxUnit.idle → fits u.params.bufCap (9 + body.length) = true →
    let w := t.txOut.drop s.txOut.length
    let sum := checksum ([ty, sq] ++ lengthBytes (BitVec.ofNat 32 body.length) ++ body)
    let v : MessageView :=
      { kind := classify ty, rawType := ty, seq := sq, payload := body, chk := .ok sum }
    (∃ u', exec (.rxParse w) u = .next u' ∧ u'.fault = none ∧
      u'.outcomes = u.outcomes ++ [.ready v w.length]) ∧
    (∀ (sizes : List Nat) (events : List (Nat × RxEvent)),
      deliverChunks sizes w 0 u = (events, []) → events = [(w.length, .ready v)])

/-- R122 with R116: two frames in one chunk. The call reports the first with `consumed` its length; a
call on the remainder reports the second. -/
def Obligations.TwoFramesInOneChunk : Prop :=
  ∀ (s : State) (ty sq ty' sq' : Byte) (body body' : List Byte),
    s.fault = none → s.rx = RxUnit.idle → body.length < 4294967296 → body'.length < 4294967296 →
    fits s.params.bufCap (9 + body.length) = true → fits s.params.bufCap (9 + body'.length) = true →
    let w := wireOf (coreOf ty sq body)
    let w' := wireOf (coreOf ty' sq' body')
    ∃ t u v v', exec (.rxParse (w ++ w')) s = .next t ∧
      t.outcomes = s.outcomes ++ [.ready v w.length] ∧ v.rawType = ty ∧ v.seq = sq ∧
      v.payload = body ∧
      exec (.rxParse ((w ++ w').drop w.length)) t = .next u ∧
      u.outcomes = t.outcomes ++ [.ready v' w'.length] ∧ v'.rawType = ty' ∧ v'.seq = sq' ∧
      v'.payload = body'

/-- The wire units and type bytes inside a frame (R64, R71, R114, R124): each gives the RX unit its
value, which is appended whatever it is, a literal HEADER or TRAILER included. -/
def Obligations.WireUnitsAppendTheirValues : Prop :=
  ∀ p : Config.Params,
    Appends .wireHeader 0x3e#8 1 p ∧ Appends .wireTrailer 0x3c#8 1 p ∧
    Appends .wireEscHeader 0x3e#8 2 p ∧ Appends .wireEscTrailer 0x3c#8 2 p ∧
    Appends .wireEscEsc 0x3d#8 2 p ∧
    (∀ x : Byte, x ≠ 0x3d#8 ∨ p.escAfterEsc = .unescape →
      Appends (.wireEscAny x) (x ||| 0x10#8) 2 p) ∧
    Appends .typeAck 0x01#8 1 p ∧ Appends .typeCommand1 0x0c#8 1 p ∧
    Appends .typeCommand2 0x0e#8 1 p ∧
    (∀ raw : Byte, Appends (.typeUnknown raw) raw (escape raw).length p)

/-- The wire units and type bytes at AwaitingHeader (R71(a), R71(f), R113): the header, literal or
escaped, is accepted; every other value is Error, with the escape byte counted in `consumed`. -/
def Obligations.WireUnitsAtTheHeader : Prop :=
  ∀ p : Config.Params,
    AcceptedAsHeader .wireHeader p ∧ AcceptedAsHeader .wireEscHeader p ∧
    AcceptedAsHeader (.typeUnknown 0x3e#8) p ∧
    RejectedAtHeader .wireTrailer 1 p ∧ RejectedAtHeader .wireEscTrailer 2 p ∧
    RejectedAtHeader .wireEscEsc 2 p ∧
    (∀ x : Byte, x ||| 0x10#8 = 0x3e#8 → AcceptedAsHeader (.wireEscAny x) p) ∧
    (∀ x : Byte, x ||| 0x10#8 ≠ 0x3e#8 → (x ≠ 0x3d#8 ∨ p.escAfterEsc = .unescape) →
      RejectedAtHeader (.wireEscAny x) 2 p) ∧
    RejectedAtHeader .typeAck 1 p ∧ RejectedAtHeader .typeCommand1 1 p ∧
    RejectedAtHeader .typeCommand2 1 p ∧
    (∀ raw : Byte, raw ≠ 0x3e#8 → RejectedAtHeader (.typeUnknown raw) (escape raw).length p)

/-- WIRE.ESC (R112, R23). With no escape pending, or under Rearm, an ESC byte sets `esc`, appends nothing
and the call is Incomplete, after the call-start clear of a retained frame (R111). Under Unescape a second
ESC is the data byte `3d`: Error at AwaitingHeader (R113), and inside a frame appended at every index
(R114), with RxOverflow, Ready or Incomplete as the count says (R115 to R117). That the row is an RX_PARSE
call is the model's reading (log 3). -/
def Obligations.EscByteSetsThePendingEscape : Prop :=
  (∀ s : State, s.fault = none → s.rx.complete = false →
    (s.rx.esc = false ∨ s.params.escAfterEsc = .rearm) →
    exec .wireEsc s = .next
      { s with rx := ⟨s.rx.buf, true⟩, outcomes := s.outcomes ++ [.incomplete s.rx.needed] }) ∧
  (∀ s : State, s.fault = none → s.rx.complete = true →
    (s.rx.esc = false ∨ s.params.escAfterEsc = .rearm) →
    exec .wireEsc s = .next
      { s with rx := ⟨[], true⟩, outcomes := s.outcomes ++ [.incomplete none] }) ∧
  (∀ s : State, s.fault = none → s.params.escAfterEsc = .unescape → s.rx = ⟨[], true⟩ →
    exec .wireEsc s = .next
      { s with rx := RxUnit.idle, outcomes := s.outcomes ++ [.error .noMessageHeader 1] }) ∧
  (∀ (s : State) (buf : List Byte), s.fault = none → s.params.escAfterEsc = .unescape →
    s.rx = ⟨buf, true⟩ → s.rx.complete = false → 1 ≤ buf.length →
    let r : RxUnit := ⟨buf ++ [0x3d#8], false⟩
    exec .wireEsc s = .next
      (if buf.length = 6 ∧ r.tooLong s.params = true then
        { s with rx := r, fault := some .rxOverflow }
      else
        { s with
          rx := r
          outcomes := s.outcomes ++
            [if r.complete = true then .ready (viewOf r) 1 else .incomplete r.needed] }))

/-- WIRE.ESC_ANY with `x = 3d` (R112(b), R71(d)): under Rearm the pair leaves the escape pending and
appends nothing. (Under Unescape it appends `3d`: WireUnitsAppendTheirValues.) -/
def Obligations.EscEscRearms : Prop :=
  ∀ s : State, s.fault = none → s.rx.complete = false → s.params.escAfterEsc = .rearm →
    exec (.wireEscAny 0x3d#8) s = .next
      { s with rx := ⟨s.rx.buf, true⟩, outcomes := s.outcomes ++ [.incomplete s.rx.needed] }

/-- The type bytes at index 1 of a frame (R65, R151): each is stored at `buf[1]` whatever it is, and gives
the frame its kind. -/
def Obligations.TypeByteGivesTheKind : Prop :=
  SetsType .typeAck 0x01#8 .ack ∧ SetsType .typeCommand1 0x0c#8 .command1 ∧
  SetsType .typeCommand2 0x0e#8 .command2 ∧
  ∀ raw : Byte, raw ≠ 0x01#8 → raw ≠ 0x0c#8 → raw ≠ 0x0e#8 →
    SetsType (.typeUnknown raw) raw .unknown

/-- Every byte reaches the RX unit by RX_PARSE (R110): a request on the wire is executed as RX_PARSE of
its bytes, and a type byte as RX_PARSE of its wire form, in every state: with a frame retained, an escape
pending or a fault recorded too. The model's reading of the WIRE and TYPE rows (log 3, log 4, log 18). -/
def Obligations.WireRequestsAreRxParse : Prop :=
  (∀ (chunk : List Byte) (i : Instr) (s : State), decode (.wire chunk) = .ok i →
    exec i s = exec (.rxParse chunk) s) ∧
  (∀ (v : Byte) (i : Instr) (s : State), decode (.typeByte v) = .ok i →
    exec i s = exec (.rxParse (escape v)) s)

/-- R23, R34(a): an escape byte that ends one chunk applies to the first byte of the next: two calls
leave the RX unit and the fault as one call on both bytes. -/
def Obligations.PendingEscapeSpansCalls : Prop :=
  ∀ (s : State) (x : Byte), s.fault = none → s.rx.esc = false → s.rx.complete = false →
    ∃ t u w, exec (.rxParse [0x3d#8]) s = .next t ∧ t.rx.esc = true ∧ t.rx.buf = s.rx.buf ∧
      exec (.rxParse [x]) t = .next u ∧ exec (.rxParse [0x3d#8, x]) s = .next w ∧
      w.rx = u.rx ∧ w.fault = u.fault

/-- R26: the RX unit keeps its invariants after every operation. -/
def Obligations.StepKeepsTheInvariant : Prop :=
  ∀ s t : State, s.Inv → step s = .next t → t.Inv

/-- The invariants hold at power-up, for every choice of the parameters (R35). -/
def Obligations.ResetMeetsTheInvariant : Prop :=
  (∀ p : Config.Params, (State.resetWith p).Inv) ∧ State.reset.Inv

/-- R48: the units share no state. The TX unit's and CHK's operations leave the RX unit as it is; the RX
unit's operations, and CHK's, leave the TX output stream as it is. -/
def Obligations.UnitsShareNoState : Prop :=
  ∀ (i : Instr) (s t : State), exec i s = .next t →
    (txChkInstr i = true → t.rx = s.rx) ∧ (rxInstr i = true → t.txOut = s.txOut) ∧
    (∀ bytes, i = .checksum bytes → t.txOut = s.txOut ∧ t.rx = s.rx)

/-- R48, by two runs: what an RX operation does to the RX unit, the fault it records and its outcome
depend on the RX unit and the parameters only; what a TX or CHK operation emits and returns does not
depend on the RX unit. -/
def Obligations.UnitsLearnNothingOfEachOther : Prop :=
  ∀ (i : Instr) (s s' t : State), s.fault = s'.fault → s.params = s'.params →
    exec i s = .next t →
    (rxInstr i = true → s.rx = s'.rx →
      ∃ t' os, exec i s' = .next t' ∧ t'.rx = t.rx ∧ t'.fault = t.fault ∧
        t.outcomes = s.outcomes ++ os ∧ t'.outcomes = s'.outcomes ++ os) ∧
    (txChkInstr i = true →
      ∃ t' os bs, exec i s' = .next t' ∧ t'.fault = t.fault ∧
        t.outcomes = s.outcomes ++ os ∧ t'.outcomes = s'.outcomes ++ os ∧
        t.txOut = s.txOut ++ bs ∧ t'.txOut = s'.txOut ++ bs)

/-- R48: the relative order of an RX and a TX or CHK operation has no effect on the block, nor on what
either unit returns, when neither records a fault. -/
def Obligations.UnitOrderHasNoEffect : Prop :=
  ∀ (i j : Instr) (s a c : State), rxInstr i = true → txChkInstr j = true →
    exec i s = .next a → a.fault = none → exec j s = .next c → c.fault = none →
    ∃ b d, exec j a = .next b ∧ exec i c = .next d ∧ b.rx = d.rx ∧ b.txOut = d.txOut ∧
      b.fault = none ∧ d.fault = none ∧
      b.outcomes.filter rxOutcome = d.outcomes.filter rxOutcome ∧
      b.outcomes.filter (fun o => !rxOutcome o) = d.outcomes.filter (fun o => !rxOutcome o)

/-- R29, R42: no step changes the parameters, and the TX output stream and the outcomes only grow. -/
def Obligations.StepKeepsParametersAndOutputs : Prop :=
  ∀ s t : State, step s = .next t →
    t.params = s.params ∧ s.txOut <+: t.txOut ∧ s.outcomes <+: t.outcomes

/-- R222 to R224, of the host beside the block: on a received Ack frame with a valid checksum the counter
takes that frame's sequence number and the flag is cleared; nothing else changes the session; what the
host does with each RX outcome is the table of R224; and a command is sent exactly when none is
outstanding, with the counter's value. The host is the model's own addition (log 14). -/
def Obligations.HostCounterFollowsAcks : Prop :=
  (∀ (h : Session) (v : MessageView) (n : Nat) (c : Byte), v.kind = .ack → v.chk = .ok c →
    h.react (.ready v n) = ({ cur := v.seq, awaiting := false }, [])) ∧
  (∀ (h : Session) (o : OpOutcome), (h.react o).1 ≠ h →
    ∃ v n c, o = .ready v n ∧ v.kind = .ack ∧ v.chk = .ok c) ∧
  (∀ (h : Session) (needed : Option Nat), h.react (.incomplete needed) = (h, [.readMore])) ∧
  (∀ (h : Session) (v : MessageView) (n : Nat),
    (v.kind = .unknown ∨ ∃ e g, v.chk = .err e g) → h.react (.ready v n) = (h, [.logAndSkip])) ∧
  (∀ (h : Session) (v : MessageView) (n : Nat) (c : Byte),
    (v.kind = .command1 ∨ v.kind = .command2) → v.chk = .ok c →
    h.react (.ready v n) = (h, [.sendAck v.seq, .decodePayload v.kind v.payload])) ∧
  (∀ (h : Session) (k : RxError) (n : Nat), h.react (.error k n) = (h, [.endSession])) ∧
  (∀ (h : Session) (b : BitVec 1) (body : List Byte),
    h.sendCommand b body =
      if h.awaiting then none
      else some ({ cur := h.cur, awaiting := true },
        .port ⟨0b0010000#7 ++ b, [.byte h.cur, .bytes body.length body]⟩))

/-- R215, of the host beside the block (log 14): a host that keeps the view-window duty gets, from
VIEW_READ, the view that the last RX operation returned, and nothing else changes. An RX operation that
records a fault, or returns anything but Ready, ends the duty's permission; a Ready gives it. -/
def Obligations.ViewDutyAvoidsStaleView : Prop :=
  (∀ (is : List Instr) (s : State), viewDuty (issueAll is s).1 = true →
    (issueAll is s).2.fault = none →
    ∃ i v n, lastRx (issueAll is s).1 = some ⟨i, some (.ready v n)⟩ ∧
      exec .viewRead (issueAll is s).2 = .next
        { (issueAll is s).2 with outcomes := (issueAll is s).2.outcomes ++ [.view v] }) ∧
  (∀ (record : List Exchange) (i : Instr) (s t : State), rxInstr i = true → exec i s = .next t →
    (viewDuty (record ++ [(issue i s).1]) = true ↔
      t.fault = none ∧ ∃ v n, t.outcomes = s.outcomes ++ [.ready v n]))
end

