-- ==== Sys2Proof/Laws/Operands.lean ====
section
/-! SUPPORT. Laws of the field operations: the length field, the escape, the checksum. -/

namespace Sys2Proof.Machine

/-- The bytes that `lengthBytes` writes are read back by `lengthOf` (R43, R67). -/
theorem lengthOf_lengthBytes (n : Word32) :
    lengthOf (n.extractLsb' 24 8) (n.extractLsb' 16 8) (n.extractLsb' 8 8) (n.extractLsb' 0 8) = n := by
  apply BitVec.eq_of_getLsbD_eq
  intro i hi
  have h : i < 8 ∨ (8 ≤ i ∧ i < 16) ∨ (16 ≤ i ∧ i < 24) ∨ 24 ≤ i := by omega
  rcases h with h | h | h | h <;>
    simp [lengthOf, BitVec.getLsbD_setWidth, BitVec.getLsbD_extractLsb'] <;>
    grind

/-- The length a list of length bytes declares, as a number. -/
theorem lengthOf_toNat (b3 b4 b5 b6 : Byte) :
    (lengthOf b3 b4 b5 b6).toNat =
      b3.toNat * 2 ^ 24 + b4.toNat * 2 ^ 16 + b5.toNat * 2 ^ 8 + b6.toNat := by
  have h : lengthOf b3 b4 b5 b6 = b3 ++ b4 ++ b5 ++ b6 := by
    apply BitVec.eq_of_getLsbD_eq
    intro i hi
    have h : i < 8 ∨ (8 ≤ i ∧ i < 16) ∨ (16 ≤ i ∧ i < 24) ∨ 24 ≤ i := by omega
    rcases h with h | h | h | h <;>
      simp [lengthOf, BitVec.getLsbD_setWidth] <;>
      grind
  rw [h]
  have h4 := b4.isLt
  have h5 := b5.isLt
  have h6 := b6.isLt
  simp only [BitVec.toNat_append]
  rw [← Nat.shiftLeft_add_eq_or_of_lt h4, ← Nat.shiftLeft_add_eq_or_of_lt h5,
    ← Nat.shiftLeft_add_eq_or_of_lt h6]
  simp only [Nat.shiftLeft_eq]
  omega

/-- A special byte is one of the three values of R63. -/
theorem special_iff (b : Byte) : special b = true ↔ b = 0x3e#8 ∨ b = 0x3c#8 ∨ b = 0x3d#8 := by
  simp only [special, Bool.or_eq_true, decide_eq_true_eq, or_assoc]
  rfl

/-- The wire form of a core byte is the byte, or an escape pair whose second byte is canonical. -/
theorem escape_cases (b : Byte) :
    (special b = false ∧ escape b = [b]) ∨
    (special b = true ∧ escape b = [Config.esc, b &&& Config.escMask]) := by
  unfold escape
  cases h : special b <;> simp

/-- The sum as a sum in `BitVec 8`. -/
theorem checksum_eq_sum (l : List Byte) : checksum l = l.sum := by
  have h : ∀ (l : List Byte) (a : Byte), l.foldl (fun acc b => acc + b) a = a + l.sum := by
    intro l
    induction l with
    | nil => simp
    | cons b l ih => intro a; simp [ih, add_assoc]
  simp [checksum, h]

theorem classify_eq_unknown_iff (t : Byte) :
    classify t = .unknown ↔ Config.knownTypes.contains t = false := by
  unfold classify
  by_cases h1 : t = Config.typeAck
  · subst h1; decide
  · by_cases h2 : t = Config.typeCmd1
    · subst h2; decide
    · by_cases h3 : t = Config.typeCmd2
      · subst h3; decide
      · simp [h1, h2, h3, Config.knownTypes]

end Sys2Proof.Machine
end

