-- ==== Sys2Proof/Laws/State.lean ====
section
/-! SUPPORT. The fields of a state after each update of it. -/

namespace Sys2Proof.Machine

@[simp] theorem raiseFault_rx (f : ModelFault) (s : State) : (raiseFault f s).rx = s.rx := rfl
@[simp] theorem raiseFault_fault (f : ModelFault) (s : State) : (raiseFault f s).fault = some f := rfl
@[simp] theorem raiseFault_params (f : ModelFault) (s : State) :
    (raiseFault f s).params = s.params := rfl
@[simp] theorem raiseFault_pending (f : ModelFault) (s : State) :
    (raiseFault f s).pending = s.pending := rfl
@[simp] theorem raiseFault_outcomes (f : ModelFault) (s : State) :
    (raiseFault f s).outcomes = s.outcomes := rfl
@[simp] theorem raiseFault_txOut (f : ModelFault) (s : State) : (raiseFault f s).txOut = s.txOut := rfl

@[simp] theorem deliver_rx (o : OpOutcome) (s : State) : (deliver o s).rx = s.rx := rfl
@[simp] theorem deliver_fault (o : OpOutcome) (s : State) : (deliver o s).fault = s.fault := rfl
@[simp] theorem deliver_params (o : OpOutcome) (s : State) : (deliver o s).params = s.params := rfl
@[simp] theorem deliver_pending (o : OpOutcome) (s : State) : (deliver o s).pending = s.pending := rfl
@[simp] theorem deliver_outcomes (o : OpOutcome) (s : State) :
    (deliver o s).outcomes = s.outcomes ++ [o] := rfl
@[simp] theorem deliver_txOut (o : OpOutcome) (s : State) : (deliver o s).txOut = s.txOut := rfl

@[simp] theorem conclude_ok (o : OpOutcome) (s : State) : conclude (.ok o) s = deliver o s := rfl
@[simp] theorem conclude_error (f : ModelFault) (s : State) :
    conclude (.error f) s = raiseFault f s := rfl
@[simp] theorem conclude_rx (res : Except ModelFault OpOutcome) (s : State) :
    (conclude res s).rx = s.rx := by cases res <;> rfl
@[simp] theorem conclude_params (res : Except ModelFault OpOutcome) (s : State) :
    (conclude res s).params = s.params := by cases res <;> rfl
@[simp] theorem conclude_pending (res : Except ModelFault OpOutcome) (s : State) :
    (conclude res s).pending = s.pending := by cases res <;> rfl
@[simp] theorem conclude_txOut (res : Except ModelFault OpOutcome) (s : State) :
    (conclude res s).txOut = s.txOut := by cases res <;> rfl

@[simp] theorem resetWith_rx (p : Config.Params) : (State.resetWith p).rx = RxUnit.idle := rfl
@[simp] theorem resetWith_fault (p : Config.Params) : (State.resetWith p).fault = none := rfl
@[simp] theorem resetWith_params (p : Config.Params) : (State.resetWith p).params = p := rfl
@[simp] theorem resetWith_pending (p : Config.Params) : (State.resetWith p).pending = [] := rfl
@[simp] theorem resetWith_outcomes (p : Config.Params) : (State.resetWith p).outcomes = [] := rfl
@[simp] theorem resetWith_txOut (p : Config.Params) : (State.resetWith p).txOut = [] := rfl

@[simp] theorem idle_len : RxUnit.idle.len = 0 := rfl
@[simp] theorem idle_complete : RxUnit.idle.complete = false := rfl

@[simp] theorem len_mk (buf : List Byte) (esc : Bool) : RxUnit.len ⟨buf, esc⟩ = buf.length := rfl

/-- The length field, the total and completion do not depend on the pending-escape flag. -/
@[simp] theorem declared_esc (buf : List Byte) (e e' : Bool) :
    (RxUnit.declared ⟨buf, e⟩ = RxUnit.declared ⟨buf, e'⟩) = True := by
  simp [RxUnit.declared]

theorem total_esc (buf : List Byte) (e e' : Bool) :
    RxUnit.total ⟨buf, e⟩ = RxUnit.total ⟨buf, e'⟩ := rfl

theorem complete_esc (buf : List Byte) (e e' : Bool) :
    RxUnit.complete ⟨buf, e⟩ = RxUnit.complete ⟨buf, e'⟩ := rfl

end Sys2Proof.Machine
end

