-- ==== Sys2Proof/Laws/Ops.lean ====
section
/-! SUPPORT. What each shared operation can do, said once. -/

namespace Sys2Proof.Machine

/-- An operation answers a next state exactly when no fault is recorded, and then it is its end. -/
theorem operate_next_iff (op : State → State × Except ModelFault OpOutcome) (s t : State) :
    operate op s = .next t ↔ s.fault = none ∧ t = conclude (op s).2 (op s).1 := by
  unfold operate
  cases s.fault <;> simp [eq_comm]

theorem operate_of_fault_none (op : State → State × Except ModelFault OpOutcome) {s : State}
    (h : s.fault = none) : operate op s = .next (conclude (op s).2 (op s).1) := by
  simp [operate, h]

theorem operate_of_fault (op : State → State × Except ModelFault OpOutcome) {s : State}
    {f : ModelFault} (h : s.fault = some f) : operate op s = .fault (.noStep f) := by
  simp [operate, h]

theorem operate_ne_refused (op : State → State × Except ModelFault OpOutcome) (s : State)
    (r : Refusal) : operate op s ≠ .refused r := by
  unfold operate
  cases s.fault <;> simp

/-- A declared length needs seven cells. -/
theorem declared_eq_none_iff (r : RxUnit) : r.declared = none ↔ r.len < 7 := by
  obtain ⟨buf, esc⟩ := r
  rcases buf with _ | ⟨a, _ | ⟨b, _ | ⟨c, _ | ⟨d, _ | ⟨e, _ | ⟨f, _ | ⟨g, l⟩⟩⟩⟩⟩⟩⟩ <;>
    simp [RxUnit.declared, RxUnit.len]

theorem total_eq_none_iff (r : RxUnit) : r.total = none ↔ r.len < 7 := by
  simp [RxUnit.total, declared_eq_none_iff]

/-- The frame total is at least 9 (R25). -/
theorem nine_le_total {r : RxUnit} {t : Nat} (h : r.total = some t) : 9 ≤ t := by
  simp only [RxUnit.total, Option.map_eq_some_iff, totalOf, Config.hdrLen, Config.trlLen] at h
  obtain ⟨l, -, rfl⟩ := h
  omega

theorem complete_iff (r : RxUnit) : r.complete = true ↔ r.total = some r.len := by
  simp [RxUnit.complete]

/-- A complete frame has at least nine bytes (R25). -/
theorem nine_le_len_of_complete {r : RxUnit} (h : r.complete = true) : 9 ≤ r.len :=
  nine_le_total ((complete_iff r).1 h)

/-- Once the length field is in the buffer, appending does not change the total (R24). -/
theorem total_append {buf : List Byte} {e : Bool} {t : Nat} (l : List Byte) (e' : Bool)
    (h : RxUnit.total ⟨buf, e⟩ = some t) : RxUnit.total ⟨buf ++ l, e'⟩ = some t := by
  rcases buf with _ | ⟨a, _ | ⟨b, _ | ⟨c, _ | ⟨d, _ | ⟨f, _ | ⟨g, _ | ⟨k, m⟩⟩⟩⟩⟩⟩⟩ <;>
    simp_all [RxUnit.total, RxUnit.declared]

/-- Which bytes announce an escape (R112). -/
theorem announcesEscape_iff (p : Config.Params) (e : Bool) (b : Byte) :
    announcesEscape p e b = true ↔ b = 0x3d#8 ∧ (e = false ∨ p.escAfterEsc = .rearm) := by
  simp only [announcesEscape, Bool.and_eq_true, Bool.or_eq_true, decide_eq_true_eq]
  rfl

/-- A frame is too long exactly when a bounded buffer holds fewer than `9 + L` bytes (R115). -/
theorem tooLong_iff (p : Config.Params) (r : RxUnit) :
    r.tooLong p = true ↔
      ∃ n h l, p.bufCap = .bytes n h ∧ r.declared = some l ∧ n < 9 + l.toNat := by
  unfold RxUnit.tooLong RxUnit.total fits totalOf
  cases hd : r.declared with
  | none => simp
  | some l =>
    cases hc : p.bufCap with
    | unbounded => simp
    | bytes n h =>
      simp [h, Config.hdrLen, Config.trlLen]
      omega

/-- What the append stage can do (R114 to R116). -/
theorem rxAppend_cases (p : Config.Params) (v : Byte) (r : RxUnit) :
    let r' : RxUnit := ⟨r.buf ++ [v], r.esc⟩
    (rxAppend p v r = (r', .overflow) ∧ r'.len = 7 ∧ r'.tooLong p = true) ∨
    (rxAppend p v r = (r', .ready) ∧ r'.complete = true) ∨
    (rxAppend p v r = (r', .more) ∧ r'.complete = false ∧
      ¬(r'.len = 7 ∧ r'.tooLong p = true)) := by
  intro r'
  have e : rxAppend p v r =
      if r'.len = 7 ∧ r'.tooLong p = true then (r', .overflow)
      else if r'.complete = true then (r', .ready) else (r', .more) := rfl
  by_cases h : r'.len = 7 ∧ r'.tooLong p = true
  · exact .inl ⟨e.trans (if_pos h), h⟩
  · rw [if_neg h] at e
    cases hc : r'.complete with
    | true => exact .inr (.inl ⟨e.trans (if_pos hc), rfl⟩)
    | false => exact .inr (.inr ⟨e.trans (if_neg (by simp [hc])), rfl, h⟩)

/-- What stages 2 to 4 can do: the header is stored, rejected, or the value is appended (R113, R114). -/
theorem rxValue_cases (p : Config.Params) (v : Byte) (r : RxUnit) :
    (r.len = 0 ∧ v = Config.header ∧ rxValue p v r = (⟨[v], r.esc⟩, .more)) ∨
    (r.len = 0 ∧ v ≠ Config.header ∧ rxValue p v r = (r, .error)) ∨
    (1 ≤ r.len ∧ rxValue p v r = rxAppend p v r) := by
  unfold rxValue
  by_cases h : r.len = 0
  · by_cases hv : v = Config.header <;> simp [h, hv]
  · exact .inr (.inr ⟨by omega, by simp [h]⟩)

/-- What one wire byte can do (R110): announce an escape, or give a value to stages 2 to 4. -/
theorem rxByte_cases (p : Config.Params) (b : Byte) (r : RxUnit) :
    (announcesEscape p r.esc b = true ∧ rxByte p b r = (⟨r.buf, true⟩, .more)) ∨
    (announcesEscape p r.esc b = false ∧
      rxByte p b r = rxValue p (if r.esc then unescape b else b) ⟨r.buf, false⟩) := by
  unfold rxByte
  cases announcesEscape p r.esc b <;> simp

/-- A byte that leads on leaves no complete frame (R116). -/
theorem not_complete_of_more {p : Config.Params} {b : Byte} {r r' : RxUnit}
    (hr : r.complete = false) (h : rxByte p b r = (r', .more)) : r'.complete = false := by
  rcases rxByte_cases p b r with ⟨-, h1⟩ | ⟨-, h1⟩
  · rw [h1] at h
    cases h
    exact hr
  · rw [h1] at h
    rcases rxValue_cases p (if r.esc then unescape b else b) ⟨r.buf, false⟩ with
      ⟨-, -, h2⟩ | ⟨-, -, h2⟩ | ⟨-, h2⟩
    · rw [h2] at h
      cases h
      rfl
    · rw [h2] at h
      cases h
    · rw [h2] at h
      rcases rxAppend_cases p (if r.esc then unescape b else b) ⟨r.buf, false⟩ with
        ⟨h3, -⟩ | ⟨h3, -⟩ | ⟨h3, h4, -⟩
      · rw [h3] at h; cases h
      · rw [h3] at h; cases h
      · rw [h3] at h
        cases h
        exact h4

/-- A byte that completes a frame leaves it complete with no escape pending (R116, R26(d)). -/
theorem complete_of_ready {p : Config.Params} {b : Byte} {r r' : RxUnit}
    (h : rxByte p b r = (r', .ready)) : r'.complete = true ∧ r'.esc = false := by
  rcases rxByte_cases p b r with ⟨-, h1⟩ | ⟨-, h1⟩
  · rw [h1] at h; cases h
  · rw [h1] at h
    rcases rxValue_cases p (if r.esc then unescape b else b) ⟨r.buf, false⟩ with
      ⟨-, -, h2⟩ | ⟨-, -, h2⟩ | ⟨-, h2⟩
    · rw [h2] at h; cases h
    · rw [h2] at h; cases h
    · rw [h2] at h
      rcases rxAppend_cases p (if r.esc then unescape b else b) ⟨r.buf, false⟩ with
        ⟨h3, -⟩ | ⟨h3, h4⟩ | ⟨h3, -⟩
      · rw [h3] at h; cases h
      · rw [h3] at h
        cases h
        exact ⟨h4, rfl⟩
      · rw [h3] at h; cases h

/-- The call-start clear leaves no complete frame (R111). -/
theorem callStartClear_not_complete (r : RxUnit) : (callStartClear r).complete = false := by
  unfold callStartClear
  cases h : r.complete
  · simp [h]
  · rfl

theorem callStartClear_of_not_complete {r : RxUnit} (h : r.complete = false) :
    callStartClear r = r := by
  simp [callStartClear, h]

/-- The next state of an RX_PARSE (R118): only the RX unit, and the fault or one outcome, change. -/
theorem rxParseOp_end {chunk : List Byte} {s t : State}
    (h : operate (rxParseOp chunk) s = .next t) :
    s.fault = none ∧ t.rx = (rxParse s.params chunk s.rx).1 ∧ t.params = s.params ∧
    t.pending = s.pending ∧ t.txOut = s.txOut ∧
    ((∃ o, (rxParse s.params chunk s.rx).2 = .ok o ∧ t.fault = none ∧
        t.outcomes = s.outcomes ++ [o]) ∨
     (∃ f, (rxParse s.params chunk s.rx).2 = .error f ∧ t.fault = some f ∧
        t.outcomes = s.outcomes)) := by
  obtain ⟨hf, rfl⟩ := (operate_next_iff _ s t).1 h
  refine ⟨hf, by simp [rxParseOp], by simp [rxParseOp], by simp [rxParseOp], by simp [rxParseOp], ?_⟩
  cases hres : (rxParse s.params chunk s.rx).2 with
  | ok o => exact .inl ⟨o, rfl, by simp [rxParseOp, hres, hf], by simp [rxParseOp, hres]⟩
  | error f => exact .inr ⟨f, rfl, by simp [rxParseOp, hres], by simp [rxParseOp, hres]⟩

/-- What frame assembly can do (R170, R173). -/
theorem frameOp_cases (ty sq : Byte) (body : List Byte) (s : State) :
    (s.params.txMaxBody.val < body.length ∧ frameOp ty sq body s = (s, .error .txBodyTooLong)) ∨
    (body.length ≤ s.params.txMaxBody.val ∧
      frameOp ty sq body s =
        ({ s with txOut := s.txOut ++ wireOf (coreOf ty sq body) },
          .ok (.frame (wireOf (coreOf ty sq body))))) := by
  unfold frameOp
  split
  · rename_i h; exact .inl ⟨h, rfl⟩
  · rename_i h; exact .inr ⟨by omega, rfl⟩

end Sys2Proof.Machine
end

