-- ==== Sys2Proof/Laws/Rx.lean ====
section
/-! SUPPORT. What the parse loop can do, said once, over the bytes that lead the RX unit on. -/

namespace Sys2Proof.Machine

/-- The loop over bytes that lead on, then over the rest (R118). -/
theorem rxLoop_append {p : Config.Params} {before : List Byte} {r r1 : RxUnit} (rest : List Byte)
    (i : Nat) (h : continues p before r = some r1) :
    rxLoop p (before ++ rest) i r = rxLoop p rest (i + before.length) r1 := by
  induction before generalizing i r with
  | nil => cases h; rfl
  | cons b bs ih =>
    simp only [continues] at h
    split at h
    · rename_i r2 hb
      simp only [List.cons_append, rxLoop, hb]
      rw [ih (i + 1) h, List.length_cons]
      congr 1
      omega
    · cases h

/-- The loop of RX_PARSE either uses up the chunk with Continue at every byte, or stops at the first
byte that gives Ready, Error or RxOverflow (R116 to R118). -/
theorem rxLoop_cases (p : Config.Params) (chunk : List Byte) (i : Nat) (r : RxUnit) :
    (∃ r', continues p chunk r = some r' ∧
      rxLoop p chunk i r = (r', .ok (.incomplete r'.needed))) ∨
    (∃ before b after r1 r', chunk = before ++ b :: after ∧ continues p before r = some r1 ∧
      ((rxByte p b r1 = (r', .ready) ∧
          rxLoop p chunk i r = (r', .ok (.ready (viewOf r') (i + before.length + 1)))) ∨
       (rxByte p b r1 = (r', .error) ∧
          rxLoop p chunk i r = (r', .ok (.error .noMessageHeader (i + before.length + 1)))) ∨
       (rxByte p b r1 = (r', .overflow) ∧ rxLoop p chunk i r = (r', .error .rxOverflow)))) := by
  induction chunk generalizing i r with
  | nil => exact .inl ⟨r, rfl, rfl⟩
  | cons b bs ih =>
    rcases hb : rxByte p b r with ⟨r2, res⟩
    cases res with
    | more =>
      have e : rxLoop p (b :: bs) i r = rxLoop p bs (i + 1) r2 := by simp only [rxLoop, hb]
      rcases ih (i + 1) r2 with ⟨r', h1, h2⟩ | ⟨before, c, after, r1, r', rfl, h1, h2⟩
      · exact .inl ⟨r', by simp only [continues, hb]; exact h1, e.trans h2⟩
      · refine .inr ⟨b :: before, c, after, r1, r', rfl, by simp only [continues, hb]; exact h1, ?_⟩
        rw [e, show i + (b :: before).length + 1 = i + 1 + before.length + 1 by
          simp only [List.length_cons]; omega]
        exact h2
    | error => exact .inr ⟨[], b, bs, r, r2, rfl, rfl, .inr (.inl ⟨hb, by simp [rxLoop, hb]⟩)⟩
    | ready => exact .inr ⟨[], b, bs, r, r2, rfl, rfl, .inl ⟨hb, by simp [rxLoop, hb]⟩⟩
    | overflow => exact .inr ⟨[], b, bs, r, r2, rfl, rfl, .inr (.inr ⟨hb, by simp [rxLoop, hb]⟩)⟩

/-- Bytes that lead on keep a unit that is not complete from being complete (R116). -/
theorem not_complete_of_continues {p : Config.Params} {l : List Byte} {r r' : RxUnit}
    (hr : r.complete = false) (h : continues p l r = some r') : r'.complete = false := by
  induction l generalizing r with
  | nil => cases h; exact hr
  | cons b bs ih =>
    simp only [continues] at h
    split at h
    · rename_i r2 hb
      exact ih (not_complete_of_more hr hb) h
    · cases h

/-- A byte that gives Error leaves the RX unit idle (R113, R121). -/
theorem idle_of_error {p : Config.Params} {b : Byte} {r r' : RxUnit}
    (h : rxByte p b r = (r', .error)) : r' = RxUnit.idle := by
  rcases rxByte_cases p b r with ⟨-, h1⟩ | ⟨-, h1⟩
  · rw [h1] at h; cases h
  · rw [h1] at h
    rcases rxValue_cases p (if r.esc then unescape b else b) ⟨r.buf, false⟩ with
      ⟨-, -, h2⟩ | ⟨h0, -, h2⟩ | ⟨-, h2⟩
    · rw [h2] at h; cases h
    · rw [h2] at h
      cases h
      have hb : r.buf = [] := List.eq_nil_of_length_eq_zero h0
      rw [hb]
      rfl
    · rw [h2] at h
      rcases rxAppend_cases p (if r.esc then unescape b else b) ⟨r.buf, false⟩ with
        ⟨h3, -⟩ | ⟨h3, -⟩ | ⟨h3, -⟩ <;> (rw [h3] at h; cases h)

/-- A byte that gives RxOverflow completes the length field of a frame that does not fit (R115). -/
theorem overflow_spec {p : Config.Params} {b : Byte} {r r' : RxUnit}
    (h : rxByte p b r = (r', .overflow)) : r'.len = 7 ∧ r'.tooLong p = true ∧ r'.esc = false := by
  rcases rxByte_cases p b r with ⟨-, h1⟩ | ⟨-, h1⟩
  · rw [h1] at h; cases h
  · rw [h1] at h
    rcases rxValue_cases p (if r.esc then unescape b else b) ⟨r.buf, false⟩ with
      ⟨-, -, h2⟩ | ⟨-, -, h2⟩ | ⟨-, h2⟩
    · rw [h2] at h; cases h
    · rw [h2] at h; cases h
    · rw [h2] at h
      rcases rxAppend_cases p (if r.esc then unescape b else b) ⟨r.buf, false⟩ with
        ⟨h3, h4, h5⟩ | ⟨h3, -⟩ | ⟨h3, -⟩ <;> (rw [h3] at h; cases h)
      exact ⟨h4, h5, rfl⟩

end Sys2Proof.Machine
end

