-- ==== Sys2Proof/Laws/Exec.lean ====
section
/-! SUPPORT. What `exec` can do, said once: every instruction but an undefined one is `operate` over one
of the shared operations. -/

namespace Sys2Proof.Machine

theorem exec_rxParse (chunk : List Byte) (s : State) :
    exec (.rxParse chunk) s = operate (rxParseOp chunk) s := rfl
theorem exec_rxReset (s : State) : exec .rxReset s = operate rxResetOp s := rfl
theorem exec_viewRead (s : State) : exec .viewRead s = operate viewReadOp s := rfl
theorem exec_txEncodeCmd (b : BitVec 1) (seq : Byte) (body : List Byte) (s : State) :
    exec (.txEncodeCmd b seq body) s = operate (frameOp (cmdType b) seq body) s := rfl
theorem exec_txEncodeAck (seq : Byte) (s : State) :
    exec (.txEncodeAck seq) s = operate (frameOp Config.typeAck (ackSeq seq) []) s := rfl
theorem exec_checksum (bytes : List Byte) (s : State) :
    exec (.checksum bytes) s = operate (checksumOp bytes) s := rfl
theorem exec_undefinedOp (op : Byte) (s : State) :
    exec (.undefinedOp op) s = .refused (.undefinedOp op) := rfl

/-- Every instruction is refused as undefined, or is one of the five shared operations; the RX unit's are
RX_PARSE of some bytes, RX_RESET and VIEW_READ. -/
theorem exec_cases (i : Instr) :
    (∃ op, i = .undefinedOp op) ∨
    (rxInstr i = true ∧ txChkInstr i = false ∧
      ∃ chunk, ∀ s, exec i s = operate (rxParseOp chunk) s) ∨
    (i = .rxReset) ∨ (i = .viewRead) ∨
    (rxInstr i = false ∧ txChkInstr i = true ∧ (∀ bytes, i ≠ .checksum bytes) ∧
      ∃ ty sq body, ∀ s, exec i s = operate (frameOp ty sq body) s) ∨
    (∃ bytes, i = .checksum bytes) := by
  cases i with
  | undefinedOp op => exact .inl ⟨op, rfl⟩
  | rxReset => exact .inr (.inr (.inl rfl))
  | viewRead => exact .inr (.inr (.inr (.inl rfl)))
  | txEncodeCmd b seq body =>
    exact .inr (.inr (.inr (.inr (.inl ⟨rfl, rfl, by simp, cmdType b, seq, body, fun _ => rfl⟩))))
  | txEncodeAck seq =>
    exact .inr (.inr (.inr (.inr (.inl
      ⟨rfl, rfl, by simp, Config.typeAck, ackSeq seq, [], fun _ => rfl⟩))))
  | checksum bytes => exact .inr (.inr (.inr (.inr (.inr ⟨bytes, rfl⟩))))
  | _ => exact .inr (.inl ⟨rfl, rfl, _, fun _ => rfl⟩)

/-- What `operate` keeps: no shared operation writes the parameters or the pending requests. -/
theorem exec_keeps_params {i : Instr} {s t : State} (h : exec i s = .next t) :
    t.params = s.params ∧ t.pending = s.pending := by
  rcases exec_cases i with ⟨op, rfl⟩ | ⟨-, -, chunk, e⟩ | rfl | rfl | ⟨-, -, -, ty, sq, body, e⟩ |
      ⟨bs, rfl⟩
  · cases h
  · rw [e] at h
    obtain ⟨-, -, hp, hq, -⟩ := rxParseOp_end h
    exact ⟨hp, hq⟩
  · rw [exec_rxReset] at h
    obtain ⟨-, rfl⟩ := (operate_next_iff _ _ _).1 h
    exact ⟨by simp [rxResetOp], by simp [rxResetOp]⟩
  · rw [exec_viewRead] at h
    obtain ⟨-, rfl⟩ := (operate_next_iff _ _ _).1 h
    exact ⟨by simp [viewReadOp], by simp [viewReadOp]⟩
  · rw [e] at h
    obtain ⟨-, rfl⟩ := (operate_next_iff _ _ _).1 h
    rcases frameOp_cases ty sq body s with ⟨-, e⟩ | ⟨-, e⟩ <;> simp [e]
  · rw [exec_checksum] at h
    obtain ⟨-, rfl⟩ := (operate_next_iff _ _ _).1 h
    exact ⟨by simp [checksumOp], by simp [checksumOp]⟩

/-- A next state comes from a state with no fault recorded (R206). -/
theorem fault_none_of_exec_next {i : Instr} {s t : State} (h : exec i s = .next t) :
    s.fault = none := by
  rcases exec_cases i with ⟨op, rfl⟩ | ⟨-, -, chunk, e⟩ | rfl | rfl | ⟨-, -, -, ty, sq, body, e⟩ |
      ⟨bs, rfl⟩
  · cases h
  · rw [e] at h; exact ((operate_next_iff _ _ _).1 h).1
  · rw [exec_rxReset] at h; exact ((operate_next_iff _ _ _).1 h).1
  · rw [exec_viewRead] at h; exact ((operate_next_iff _ _ _).1 h).1
  · rw [e] at h; exact ((operate_next_iff _ _ _).1 h).1
  · rw [exec_checksum] at h; exact ((operate_next_iff _ _ _).1 h).1

end Sys2Proof.Machine
end

