-- ==== Sys2Proof/Laws/Host.lean ====
section
/-! SUPPORT. What the host's record of its operations says, one exchange at a time. -/

namespace Sys2Proof.Machine

/-- An instruction that answers a next state is recorded with the outcome it returned, if any. -/
theorem issue_of_next {i : Instr} {s t : State} (h : exec i s = .next t) :
    issue i s = (⟨i, if t.fault = none then t.outcomes.getLast? else none⟩, t) := by
  simp [issue, h]

/-- An instruction that has no step, or is refused, returns nothing and leaves the block as it is. -/
theorem issue_of_stop {i : Instr} {s : State} (h : ∀ t, exec i s ≠ .next t) :
    issue i s = (⟨i, none⟩, s) := by
  unfold issue
  split
  · rename_i t ht; exact absurd ht (h t)
  · rfl

@[simp] theorem issue_issued (i : Instr) (s : State) : (issue i s).1.issued = i := by
  unfold issue
  split <;> rfl

@[simp] theorem lastRx_nil : lastRx [] = none := rfl

/-- A later operation of the RX unit is the last one; one of another unit is not. -/
theorem lastRx_append (record : List Exchange) (e : Exchange) :
    lastRx (record ++ [e]) = if rxInstr e.issued = true then some e else lastRx record := by
  cases h : rxInstr e.issued <;> simp [lastRx, h]

/-- The duty allows VIEW_READ exactly when the last RX operation returned Ready (R215). -/
theorem viewDuty_iff (record : List Exchange) :
    viewDuty record = true ↔ ∃ i v n, lastRx record = some ⟨i, some (.ready v n)⟩ := by
  unfold viewDuty
  split
  · rename_i i v n h; exact ⟨fun _ => ⟨i, v, n, h⟩, fun _ => rfl⟩
  · rename_i h
    constructor
    · intro hf; cases hf
    · rintro ⟨i, v, n, he⟩; exact absurd he (h i v n)

end Sys2Proof.Machine
end

