-- ==== Sys2Proof/Laws/PerInstr.lean ====
section
/-! SUPPORT. One family of laws, made per instruction: the encoding of an instruction carries the bits
that its row of spec/opcode_table.json fixes. -/

namespace Sys2Proof.Laws

/-- The word that the opcode table describes: the op byte, the wire byte or pair, the type byte. -/
def tableWord : Request → Nat
  | .port t => t.op.toNat
  | .wire [b] => b.toNat
  | .wire (b :: x :: _) => b.toNat * 256 + x.toNat
  | .wire [] => 0
  | .typeByte v => v.toNat

/-- A row's mask and match, as the table writes them; an "any other value" row fixes no bit. -/
def rowBits : Instr → Nat × Nat
  | .rxParse _ => (0xFF, 0x10)
  | .rxReset => (0xFF, 0x11)
  | .viewRead => (0xFF, 0x12)
  | .txEncodeCmd _ _ _ => (0xFE, 0x20)
  | .txEncodeAck _ => (0xFF, 0x28)
  | .checksum _ => (0xFF, 0x30)
  | .undefinedOp _ => (0, 0)
  | .wireHeader => (0xFF, 0x3e)
  | .wireTrailer => (0xFF, 0x3c)
  | .wireEsc => (0xFF, 0x3d)
  | .wireEscHeader => (0xFFFF, 0x3d2e)
  | .wireEscTrailer => (0xFFFF, 0x3d2c)
  | .wireEscEsc => (0xFFFF, 0x3d2d)
  | .wireEscAny _ => (0xFF00, 0x3d00)
  | .typeAck => (0xFF, 0x01)
  | .typeCommand1 => (0xFF, 0x0c)
  | .typeCommand2 => (0xFF, 0x0e)
  | .typeUnknown _ => (0, 0)

/-- The encoding of `i` has the bits of its row. -/
def RowBits.Statement (i : Instr) : Prop :=
  tableWord (encode i) &&& (rowBits i).1 = (rowBits i).2

theorem RowBits.rxParse (chunk : List Byte) : RowBits.Statement (.rxParse chunk) := by
  simp [RowBits.Statement, rowBits, encode, tableWord, Config.opRxParse]
theorem RowBits.rxReset : RowBits.Statement .rxReset := by unfold RowBits.Statement; rfl
theorem RowBits.viewRead : RowBits.Statement .viewRead := by unfold RowBits.Statement; rfl
theorem RowBits.txEncodeCmd (s : BitVec 1) (seq : Byte) (body : List Byte) :
    RowBits.Statement (.txEncodeCmd s seq body) := by
  have h : ∀ s : BitVec 1, (Config.opTxEncodeCmd ++ s).toNat &&& 0xFE = 0x20 := by decide
  exact h s
theorem RowBits.txEncodeAck (seq : Byte) : RowBits.Statement (.txEncodeAck seq) := by
  simp [RowBits.Statement, rowBits, encode, tableWord, Config.opTxEncodeAck]
theorem RowBits.checksum (bytes : List Byte) : RowBits.Statement (.checksum bytes) := by
  simp [RowBits.Statement, rowBits, encode, tableWord, Config.opChecksum]
theorem RowBits.undefinedOp (op : Byte) : RowBits.Statement (.undefinedOp op) := by
  simp [RowBits.Statement, rowBits]
theorem RowBits.wireHeader : RowBits.Statement .wireHeader := by unfold RowBits.Statement; rfl
theorem RowBits.wireTrailer : RowBits.Statement .wireTrailer := by unfold RowBits.Statement; rfl
theorem RowBits.wireEsc : RowBits.Statement .wireEsc := by unfold RowBits.Statement; rfl
theorem RowBits.wireEscHeader : RowBits.Statement .wireEscHeader := by
  unfold RowBits.Statement; rfl
theorem RowBits.wireEscTrailer : RowBits.Statement .wireEscTrailer := by
  unfold RowBits.Statement; rfl
theorem RowBits.wireEscEsc : RowBits.Statement .wireEscEsc := by unfold RowBits.Statement; rfl
theorem RowBits.wireEscAny (x : Byte) : RowBits.Statement (.wireEscAny x) := by
  have h : ∀ x : Byte, (0x3d * 256 + x.toNat) &&& 0xFF00 = 0x3d00 := by decide +kernel
  exact h x
theorem RowBits.typeAck : RowBits.Statement .typeAck := by unfold RowBits.Statement; rfl
theorem RowBits.typeCommand1 : RowBits.Statement .typeCommand1 := by unfold RowBits.Statement; rfl
theorem RowBits.typeCommand2 : RowBits.Statement .typeCommand2 := by unfold RowBits.Statement; rfl
theorem RowBits.typeUnknown (raw : Byte) : RowBits.Statement (.typeUnknown raw) := by
  simp [RowBits.Statement, rowBits]

end Sys2Proof.Laws
end

