-- ==== Sys2Proof/Tests/Slice0.lean ====
section
/-! SUPPORT. The model's own tests: well-formedness, decoding against words written out from
spec/30_encoding.md, one-step tests against spec/95_test_vectors.md, and a witness for the hypotheses of
each statement. -/

namespace Sys2Proof.Tests

open Sys2Proof.Machine

/-! ## Helpers -/

/-- Parameters as spec/95_test_vectors.md assumes them, with `ESC_AFTER_ESC` Unescape. -/
def wide : Config.Params := ⟨.unbounded, .unescape, 4294967295⟩
/-- A small block: BUF_CAP 16, Rearm, TX_MAX_BODY 4. -/
def small : Config.Params := ⟨.bytes 16 (by decide), .rearm, 4⟩
/-- A fault-free state of the block `p` with the given RX cells and pending-escape flag. -/
def at_ (p : Config.Params) (buf : List Byte) (esc : Bool) : State :=
  { State.resetWith p with rx := ⟨buf, esc⟩ }
/-- The block `p` after a recorded StaleView. -/
def faulted (p : Config.Params) : State := { State.resetWith p with fault := some .staleView }
/-- The next state, if there is one. -/
def after (o : Host.Outcome State Fault Refusal) : Option State :=
  match o with
  | .next t => some t
  | _ => none
/-- The outcomes, `len`, `esc` and `fault` of the next state. -/
def seen (o : Host.Outcome State Fault Refusal) :
    Option (List OpOutcome × Nat × Bool × Option ModelFault) :=
  (after o).map fun t => (t.outcomes, t.rx.len, t.rx.esc, t.fault)

/-- The Init frame, vector V-T1. -/
def vT1 : List Byte := [0x3e, 0x0c, 0x00, 0x00, 0x00, 0x00, 0x02, 0x00, 0x00, 0x0e, 0x3c]
/-- The Ack of sequence number 0, vector V-T2. -/
def vT2 : List Byte := [0x3e, 0x01, 0x01, 0x00, 0x00, 0x00, 0x00, 0x02, 0x3c]
/-- Vector V-T7: each special value escaped once. -/
def vT7 : List Byte :=
  [0x3e, 0x0c, 0x00, 0x00, 0x00, 0x00, 0x03, 0x3d, 0x2e, 0x3d, 0x2c, 0x3d, 0x2d, 0xc6, 0x3c]
/-- The view of V-T1. -/
def viewT1 : MessageView := ⟨.command1, 0x0c, 0x00, [0x00, 0x00], .ok 0x0e⟩
/-- The block `p` with V-T1 retained. -/
def holding (p : Config.Params) : State := at_ p vT1 false

/-! ## Well-formedness -/

theorem test_definedOp_is_no_undefinedOp : (Instr.undefinedOp 0x21).wellFormed = false := by decide
theorem test_canonicalPair_is_no_escAny : (Instr.wireEscAny 0x2d).wellFormed = false := by decide
theorem test_knownType_is_no_unknown : (Instr.typeUnknown 0x0c).wellFormed = false := by decide

/-! ## Decoding: each word written out from R63, R65 and R80 -/

theorem test_decode_port :
    decode (.port ⟨0b00010000, [.bytes 2 [0x3e, 0x0c]]⟩) = .ok (.rxParse [0x3e, 0x0c]) ∧
    decode (.port ⟨0b00010001, []⟩) = .ok .rxReset ∧
    decode (.port ⟨0b00010010, []⟩) = .ok .viewRead ∧
    decode (.port ⟨0b00100000, [.byte 0x07, .bytes 1 [0x09]]⟩) = .ok (.txEncodeCmd 0 0x07 [0x09]) ∧
    decode (.port ⟨0b00100001, [.byte 0x07, .bytes 0 []]⟩) = .ok (.txEncodeCmd 1 0x07 []) ∧
    decode (.port ⟨0b00101000, [.byte 0xc5]⟩) = .ok (.txEncodeAck 0xc5) ∧
    decode (.port ⟨0b00110000, [.bytes 1 [0xff]]⟩) = .ok (.checksum [0xff]) ∧
    decode (.port ⟨0x13, []⟩) = .ok (.undefinedOp 0x13) := by decide

theorem test_decode_wire :
    decode (.wire [0x3e]) = .ok .wireHeader ∧ decode (.wire [0x3c]) = .ok .wireTrailer ∧
    decode (.wire [0x3d]) = .ok .wireEsc ∧ decode (.wire [0x3d, 0x2e]) = .ok .wireEscHeader ∧
    decode (.wire [0x3d, 0x2c]) = .ok .wireEscTrailer ∧
    decode (.wire [0x3d, 0x2d]) = .ok .wireEscEsc ∧
    decode (.wire [0x3d, 0x3d]) = .ok (.wireEscAny 0x3d) ∧
    decode (.wire [0x2e]) = .ok (.rxParse [0x2e]) := by decide

theorem test_decode_type :
    decode (.typeByte 0x01) = .ok .typeAck ∧ decode (.typeByte 0x0c) = .ok .typeCommand1 ∧
    decode (.typeByte 0x0e) = .ok .typeCommand2 ∧
    decode (.typeByte 0x0d) = .ok (.typeUnknown 0x0d) := by decide

theorem test_decode_rejects_wrong_operands :
    decode (.port ⟨0x11, [.byte 0x00]⟩) = .error (.wrongOperands 0x11) ∧
    decode (.port ⟨0x10, [.bytes 3 [0x3e]]⟩) = .error (.lengthMismatch 0x10) := by decide

/-- The table's words with every operand zero (R80; 0x3d is the byte that is first on the wire). -/
theorem test_table_words :
    [(8, 0x10), (8, 0x11), (8, 0x12), (8, 0x20), (8, 0x21), (8, 0x28), (8, 0x30), (8, 0x3e), (8, 0x3c),
      (8, 0x3d), (16, 0x3d2e), (16, 0x3d2c), (16, 0x3d2d), (16, 0x3d00), (8, 0x01), (8, 0x0c),
      (8, 0x0e), (8, 0x13)].map (fun r => decodeTableWord r.1 r.2) =
    [some (.rxParse []), some .rxReset, some .viewRead, some (.txEncodeCmd 0 0 []),
      some (.txEncodeCmd 1 0 []), some (.txEncodeAck 0), some (.checksum []), some .wireHeader,
      some .wireTrailer, some .wireEsc, some .wireEscHeader, some .wireEscTrailer, some .wireEscEsc,
      some (.wireEscAny 0), some .typeAck, some .typeCommand1, some .typeCommand2,
      some (.undefinedOp 0x13)] := by decide

/-! ## One step each, against spec/95_test_vectors.md -/

/-- V-P13, second call: the escape pending from the first chunk applies to this one's first byte. -/
theorem test_rxParse_resumes_inside_a_pair :
    seen (exec (.rxParse (vT7.drop 8)) (at_ wide (vT7.take 7) true)) =
      some ([.ready ⟨.command1, 0x0c, 0x00, [0x3e, 0x3c, 0x3d], .ok 0xc6⟩ 7], 12, false, none) := by
  decide
/-- V-P20: the declared total 17 exceeds BUF_CAP 16 at the seventh byte. -/
theorem test_rxParse_overflow :
    seen (exec (.rxParse [0x3e, 0x0c, 0x00, 0x00, 0x00, 0x00, 0x08, 0x00, 0x00]) (at_ small [] false)) =
      some ([], 7, false, some .rxOverflow) := by decide
/-- V-P23: a partial frame and a pending escape are discarded. -/
theorem test_rxReset_forgets_the_escape :
    seen (exec .rxReset (at_ wide [0x3e, 0x0c] true)) = some ([.resetDone], 0, false, none) := by decide
/-- V-P18. -/
theorem test_viewRead_retained :
    seen (exec .viewRead (holding wide)) = some ([.view viewT1], 11, false, none) := by decide
/-- V-P19. -/
theorem test_viewRead_idle :
    seen (exec .viewRead (at_ wide [] false)) = some ([], 0, false, some .staleView) := by decide
/-- V-T7. -/
theorem test_txEncodeCmd_escapes :
    (after (exec (.txEncodeCmd 0 0x00 [0x3e, 0x3c, 0x3d]) (at_ wide [] false))).map (·.txOut) =
      some vT7 := by decide
/-- V-T13: five bytes with TX_MAX_BODY 4. -/
theorem test_txEncodeCmd_too_long :
    (after (exec (.txEncodeCmd 0 0x00 [0, 0, 0, 0, 0]) (at_ small [] false))).map
      (fun t => (t.txOut, t.fault)) = some ([], some .txBodyTooLong) := by decide
/-- V-T5. -/
theorem test_txEncodeAck_escapes :
    (after (exec (.txEncodeAck 0xc5) (at_ wide [] false))).map (·.txOut) =
      some [0x3e, 0x01, 0x3d, 0x2c, 0x00, 0x00, 0x00, 0x00, 0x3d, 0x2d, 0x3c] := by decide
/-- V-C4 and V-C8. -/
theorem test_checksum_wraps :
    checksum [0x0c, 0x01, 0x00, 0x00, 0x00, 0x02, 0xff, 0xff] = 0x0d ∧
    checksum [0x0c, 0x00, 0x00, 0x00, 0x00, 0x03, 0x3e, 0x3c, 0x3d] = 0xc6 := by decide
/-- V-R3. -/
theorem test_undefinedOp :
    exec (.undefinedOp 0x13) (at_ wide [] false) = .refused (.undefinedOp 0x13) := rfl
/-- V-P15: a literal header inside a frame is data. -/
theorem test_wireHeader_is_data :
    (after (exec .wireHeader (at_ wide [0x3e, 0x0c, 0, 0, 0, 0, 1] false))).map (·.rx.buf) =
      some [0x3e, 0x0c, 0, 0, 0, 0, 1, 0x3e] := by decide
/-- V-P28: a lone trailer is no header. -/
theorem test_wireTrailer_at_idle :
    seen (exec .wireTrailer (at_ wide [] false)) =
      some ([.error .noMessageHeader 1], 0, false, none) := by decide
/-- V-P24, first call. -/
theorem test_wireEsc_is_pending :
    seen (exec .wireEsc (at_ wide [] false)) = some ([.incomplete none], 0, true, none) := by decide
/-- V-P6: an escaped header at idle is the header. -/
theorem test_wireEscHeader_at_idle :
    seen (exec .wireEscHeader (at_ wide [] false)) =
      some ([.incomplete none], 1, false, none) := by decide
/-- V-P25: an escaped trailer completes the frame. -/
theorem test_wireEscTrailer_completes :
    seen (exec .wireEscTrailer (at_ wide (vT2.take 8) false)) =
      some ([.ready ⟨.ack, 0x01, 0x01, [], .ok 0x02⟩ 2], 9, false, none) := by decide
/-- R64: the pair `3d 2d` is the byte `3d`. -/
theorem test_wireEscEsc_value :
    (after (exec .wireEscEsc (at_ small [0x3e] false))).map (·.rx.buf) =
      some [0x3e, 0x3d] := by decide
/-- V-P7: `00 | 10` is not the header. -/
theorem test_wireEscAny_at_idle :
    seen (exec (.wireEscAny 0x00) (at_ wide [] false)) =
      some ([.error .noMessageHeader 2], 0, false, none) := by decide
/-- R112(b): `ESC ESC` under Rearm and under Unescape. -/
theorem test_wireEscAny_escEsc :
    (after (exec (.wireEscAny 0x3d) (at_ small [0x3e] false))).map (·.rx) = some ⟨[0x3e], true⟩ ∧
    (after (exec (.wireEscAny 0x3d) (at_ wide [0x3e] false))).map (·.rx) =
      some ⟨[0x3e, 0x3d], false⟩ := by decide
/-- R65: the type bytes at index 1. -/
theorem test_typeBytes :
    (after (exec .typeAck (at_ wide [0x3e] false))).map (·.rx.kind) = some (some .ack) ∧
    (after (exec .typeCommand1 (at_ wide [0x3e] false))).map (·.rx.kind) = some (some .command1) ∧
    (after (exec .typeCommand2 (at_ wide [0x3e] false))).map (·.rx.kind) = some (some .command2) := by
  decide
/-- V-P26: the header value as a type byte. -/
theorem test_typeUnknown_header_value :
    (after (exec (.typeUnknown 0x3e) (at_ wide [0x3e] false))).map (fun t => (t.rx.buf, t.rx.kind)) =
      some ([0x3e, 0x3e], some .unknown) := by decide
/-- Every word of the table runs as the first request after reset. -/
theorem test_table_words_run :
    [(8, 0x10), (8, 0x11), (8, 0x12), (8, 0x20), (8, 0x21), (8, 0x28), (8, 0x30), (8, 0x3e), (8, 0x3c),
      (8, 0x3d), (16, 0x3d2e), (16, 0x3d2c), (16, 0x3d2d), (16, 0x3d00), (8, 0x01), (8, 0x0c),
      (8, 0x0e)].all (fun r => (after (step (State.reset.withFetchWord r.1 r.2))).isSome) = true := by
  decide
/-- Prog E: DRAIN over two frames. -/
theorem test_drain_two_frames :
    (after (drain (vT1 ++ vT2) (at_ small [] false))).map (·.outcomes) =
      some [.ready viewT1 11, .ready ⟨.ack, 0x01, 0x01, [], .ok 0x02⟩ 9] := by decide

/-! ## Witnesses: the hypotheses of each statement hold together -/

/-- A concrete RX unit whose total, if any, is known is sound when its parts are. -/
theorem sound_of {p : Config.Params} {r : RxUnit} (o : Option Nat) (ho : r.total = o)
    (h1 : fits p.bufCap r.len = true) (h2 : ∀ t, o = some t → r.len ≤ t)
    (h3 : 1 ≤ r.len → r.buf[0]? = some Config.header) (h4 : r.complete = true → r.esc = false) :
    r.Sound p :=
  ⟨h1, fun t h => h2 t (ho ▸ h), h3, h4, fun h => by
    cases hc : r.complete with
    | false => rfl
    | true => have := nine_le_len_of_complete hc; omega⟩

theorem sound_before_length {p : Config.Params} {r : RxUnit} (h : r.len < 7)
    (h3 : 1 ≤ r.len → r.buf[0]? = some Config.header) : r.Sound p := by
  refine sound_of none ((total_eq_none_iff r).2 h) ?_ (fun t h => by cases h) h3 ?_
  · unfold fits
    split
    · rfl
    · simp only [decide_eq_true_eq]; omega
  · intro hc
    have := nine_le_len_of_complete hc
    omega

theorem resetWith_inv (p : Config.Params) : (State.resetWith p).Inv :=
  ⟨sound_before_length (show RxUnit.len RxUnit.idle < 7 by decide)
    (fun h => absurd h (show ¬1 ≤ RxUnit.len RxUnit.idle by decide)), fun _ => rfl⟩

theorem witness_DecodeEncodeAgree : (Instr.wireEscAny 0x3d).wellFormed = true := by decide
theorem witness_DecodedIsWellFormed : decode (.wire [0x3d, 0x00]) = .ok (.wireEscAny 0x00) := by decide
theorem witness_UndefinedOpIsRefused :
    (0x22#8 : Byte) ∉ [0x10#8, 0x11#8, 0x12#8, 0x20#8, 0x21#8, 0x28#8, 0x30#8] ∧
    ({ at_ wide [] false with pending := [.port ⟨0x22, []⟩] } : State).pending =
      .port ⟨0x22, []⟩ :: [] := by decide
theorem witness_StepRunsTheDecodedInstruction :
    ({ at_ wide [] false with pending := [.wire [0x3e]] } : State).pending = .wire [0x3e] :: [] ∧
    decode (.wire [0x3e]) = .ok .wireHeader := by decide
theorem witness_IdleBlockHoldsItsState : (at_ wide [0x3e] true).pending = [] := by decide
/-- For the statements whose only premise is that no fault is recorded. -/
theorem witness_fault_free : (at_ wide [0x3e, 0x0c] true).fault = none := by decide
/-- For the statements and clauses whose only premise is a recorded fault. -/
theorem witness_faulted : (faulted wide).fault = some .staleView := by decide
theorem witness_RefusedRunNeverEndsWell :
    Request.port ⟨0x13, []⟩ ∈ [encode .rxReset, Request.port ⟨0x13, []⟩] ∧
    decode (.port ⟨0x13, []⟩) = .ok (.undefinedOp 0x13) := by decide
theorem witness_EveryOperationHasAStep :
    (at_ small [] false).fault = none ∧ ∀ op, Instr.viewRead ≠ .undefinedOp op := by simp [at_]
theorem witness_EscapeStage :
    ((0x3d#8 : Byte) = 0x3d#8 ∧ (false = false ∨ wide.escAfterEsc = .rearm)) ∧
    ¬((0x3d#8 : Byte) = 0x3d#8 ∧ (true = false ∨ wide.escAfterEsc = .rearm)) := by decide
theorem witness_HeaderCheck :
    RxUnit.idle.len = 0 ∧ RxUnit.idle.esc = false ∧ (0x3c#8 : Byte) ≠ 0x3e#8 := by decide
/-- The seventh byte of a frame of total 17: it overflows a buffer of 16 and no larger one. -/
theorem witness_AppendAndCompletion :
    (rxValue small 0x08 ⟨[0x3e, 0x0c, 0, 0, 0, 0], false⟩).2 = .overflow ∧
    (rxValue small 0x07 ⟨[0x3e, 0x0c, 0, 0, 0, 0], false⟩).2 = .more ∧
    (rxValue small 0xff ⟨vT2.take 8, false⟩).2 = .ready := by decide
theorem witness_PhaseSequence_phases :
    RxUnit.phase ⟨[], false⟩ = .awaitingHeader ∧
    RxUnit.phase ⟨[0x3e], true⟩ = .readingTypeAndSeq ∧
    RxUnit.phase ⟨[0x3e, 0x0c, 0x00], false⟩ = .readingLength ∧
    RxUnit.phase ⟨[0x3e, 0x0c, 0, 0, 0, 0], false⟩ = .readingLength ∧
    RxUnit.phase ⟨vT2.take 8, false⟩ = .readingPayloadAndTrailer ∧
    RxUnit.phase ⟨vT2, false⟩ = .complete := by decide
theorem witness_PhaseSequence_sound :
    RxUnit.Sound wide ⟨[], true⟩ ∧ RxUnit.Sound small ⟨[], true⟩ ∧ RxUnit.Sound wide ⟨[], false⟩ ∧
    RxUnit.Sound wide ⟨[0x3e], true⟩ ∧ RxUnit.Sound small ⟨[0x3e, 0x0c, 0x00], false⟩ ∧
    RxUnit.Sound small ⟨[0x3e, 0x0c, 0, 0, 0, 0], false⟩ ∧ RxUnit.Sound small ⟨vT2.take 8, false⟩ ∧
    RxUnit.Sound small ⟨vT2, false⟩ :=
  ⟨sound_before_length (by decide) (by decide), sound_before_length (by decide) (by decide),
    sound_before_length (by decide) (by decide), sound_before_length (by decide) (by decide),
    sound_before_length (by decide) (by decide), sound_before_length (by decide) (by decide),
    sound_of (some 9) (by decide) (by decide) (fun t h => by cases h; decide) (by decide) (by decide),
    sound_of (some 9) (by decide) (by decide) (fun t h => by cases h; decide) (by decide) (by decide)⟩
/-- One chunk for each clause: Incomplete, Ready, Error, RxOverflow. -/
theorem witness_RxParseFollowsItsBytes :
    continues small [0x3e, 0x0c, 0x3d] (callStartClear ⟨vT1, false⟩) = some ⟨[0x3e, 0x0c], true⟩ ∧
    (continues small (vT2.take 8) RxUnit.idle = some ⟨vT2.take 8, false⟩ ∧
      rxByte small 0x3c ⟨vT2.take 8, false⟩ = (⟨vT2, false⟩, .ready)) ∧
    (continues small [0x3d] RxUnit.idle = some ⟨[], true⟩ ∧
      rxByte small 0x00 ⟨[], true⟩ = (RxUnit.idle, .error)) ∧
    (continues small [0x3e, 0x0c, 0, 0, 0, 0] RxUnit.idle =
        some ⟨[0x3e, 0x0c, 0, 0, 0, 0], false⟩ ∧
      rxByte small 0x08 ⟨[0x3e, 0x0c, 0, 0, 0, 0], false⟩ =
        (⟨[0x3e, 0x0c, 0, 0, 0, 0, 0x08], false⟩, .overflow)) ∧
    (faulted small).fault = some .staleView := by decide
/-- V-P5: noise before a frame. -/
theorem witness_ErrorLeavesTheUnitIdle :
    seen (exec (.rxParse (0xaa :: vT1)) (at_ wide [] false)) =
      some ([.error .noMessageHeader 1], 0, false, none) := by decide
/-- V-P3: two frames in one chunk. -/
theorem witness_UnreadBytesHaveNoEffect :
    seen (exec (.rxParse (vT1 ++ vT2)) (at_ small [] false)) =
      some ([.ready viewT1 11], 11, false, none) := by decide
/-- V-P21 (Some 4 at seven bytes); None at six. -/
theorem witness_IncompleteReportsWhatIsNeeded :
    ((State.resetWith wide).Inv ∧ (State.resetWith wide).fault = none) ∧
    (continues wide (vT1.take 6) (callStartClear (State.resetWith wide).rx) =
        some ⟨vT1.take 6, false⟩ ∧
      continues wide (vT1.take 7) (callStartClear (State.resetWith wide).rx) =
        some ⟨vT1.take 7, false⟩) ∧
    seen (exec (.rxParse (vT1.take 6)) (State.resetWith wide)) =
      some ([.incomplete none], 6, false, none) ∧
    seen (exec (.rxParse (vT1.take 7)) (State.resetWith wide)) =
      some ([.incomplete (some 4)], 7, false, none) :=
  ⟨⟨resetWith_inv wide, rfl⟩, by decide, by decide, by decide⟩
theorem witness_EmptyChunkDropsTheRetainedFrame :
    (holding wide).fault = none ∧ (holding wide).rx.complete = true ∧
    (at_ wide (vT1.take 10) false).rx.complete = false := by decide
/-- Chunks of 3, 0, 9 and 20 bytes over noise, a frame and a cut-off frame use the whole stream. -/
theorem witness_ChunkSplitInvariance :
    deliverChunks [3, 0, 9, 20] (0xaa :: vT2 ++ [0x3e, 0x3d]) 0 (at_ wide [] false) =
      ([(1, .error), (10, .ready ⟨.ack, 0x01, 0x01, [], .ok 0x02⟩)], []) := by decide
theorem witness_OverflowIsRecordedAtTheLengthField :
    ∃ t, exec (.rxParse [0x08]) (at_ small [0x3e, 0x0c, 0, 0, 0, 0] false) = .next t ∧
      t.fault ≠ none := ⟨_, rfl, by decide⟩
theorem witness_ViewOfACompletedFrame :
    ([0x01#8, 0x02#8] : List Byte).length = (lengthOf 0x00 0x00 0x00 0x02).toNat ∧
    ([] : List Byte).length = (lengthOf 0x00 0x00 0x00 0x00).toNat := by decide
theorem witness_TypeClassification :
    (0x0d#8 : Byte) ≠ 0x01#8 ∧ (0x0d#8 : Byte) ≠ 0x0c#8 ∧ (0x0d#8 : Byte) ≠ 0x0e#8 := by decide
theorem witness_ViewReadOnlyInItsWindow :
    (holding small).fault = none ∧ (holding small).rx.complete = true ∧
    (at_ small [0x3e] false).rx.complete = false ∧ (faulted small).fault = some .staleView := by decide
/-- A Ready, then a call that is Incomplete and records no fault. -/
theorem witness_RetainedFrameWindow :
    (∃ t, exec (.rxParse vT1) (at_ small [] false) = .next t ∧
      t.outcomes = (at_ small [] false).outcomes ++ [.ready viewT1 11]) ∧
    seen (exec (.rxParse [0x3e]) (holding small)) = some ([.incomplete none], 1, false, none) :=
  ⟨⟨_, rfl, by decide⟩, by decide⟩
/-- Indices 1, 2, 7 and 8 of V-T1 (type, seq, first and last payload byte), and 3 and 6 (length). -/
theorem witness_SingleByteCorruptionIsReported :
    (holding wide).rx.complete = true ∧ (viewOf (holding wide).rx).chk = .ok 0x0e ∧
    (∀ i ∈ [1, 2, 3, 6, 7, 8], i < (holding wide).rx.len ∧
      (holding wide).rx.buf[i]? ≠ some 0x55) := by decide
theorem witness_ChecksumLaws :
    ([0x01#8, 0x02#8] : List Byte).Perm [0x02#8, 0x01#8] ∧ (0x01#8 : Byte) ≠ 0x02#8 :=
  ⟨List.Perm.swap .., by decide⟩
/-- TX_MAX_BODY 4: a body of 4 bytes fits, one of 5 does not. -/
theorem witness_TxEncodeCmdEmitsTheFrame :
    (at_ small [] false).fault = none ∧
    (List.replicate 4 0#8).length ≤ (at_ small [] false).params.txMaxBody.val ∧
    (at_ small [] false).params.txMaxBody.val < (List.replicate 5 0#8).length := by decide
theorem witness_EscapingRoundTrips :
    escape 0x3e#8 = [0x3d#8, 0x2e#8] ∧ (0x2e#8 : Byte) ≠ 0x3e#8 := by decide
theorem witness_WireLength :
    (after (exec (.txEncodeCmd 1 0x3e []) (at_ small [] false))).map (·.fault) = some none ∧
    (after (exec (.txEncodeAck 0xc5) (at_ small [] false))).isSome = true := by decide
/-- V-T2; also the frame of EmittedFramesRoundTrip, which fits a buffer of 9 or more. -/
theorem witness_CanonicalOutput :
    (after (exec (.txEncodeAck 0x00) (at_ small [] false))).map (·.txOut) = some vT2 ∧ vT2 ≠ [] ∧
    (at_ small [] false).txOut ++ vT2 = vT2 := by decide
theorem witness_EmittedFramesRoundTrip :
    (after (exec (.txEncodeAck 0x00) (at_ small [] false))).map (·.fault) = some none ∧
    (at_ small [] false).fault = none ∧ (at_ small [] false).rx = RxUnit.idle ∧
    fits small.bufCap (9 + ([] : List Byte).length) = true ∧
    deliverChunks [8, 1] vT2 0 (at_ small [] false) =
      ([(9, .ready ⟨.ack, 0x01, 0x01, [], .ok 0x02⟩)], []) := by decide
theorem witness_TwoFramesInOneChunk :
    (at_ small [] false).fault = none ∧ (at_ small [] false).rx = RxUnit.idle ∧
    fits small.bufCap (9 + (List.replicate 7 0#8).length) = true ∧
    fits small.bufCap (9 + ([] : List Byte).length) = true := by decide
/-- The sixth cell filled, in a block where the seventh byte overflows only from `08` on. -/
theorem witness_WireUnitsAppendTheirValues :
    (at_ small [0x3e, 0x0c, 0, 0, 0, 0] false).rx.complete = false ∧
    1 ≤ (at_ small [0x3e, 0x0c, 0, 0, 0, 0] false).rx.len ∧
    RxUnit.tooLong small ⟨[0x3e, 0x0c, 0, 0, 0, 0, 0x01], false⟩ = false ∧
    1 ≤ (at_ wide [0x3e, 0x0c, 0, 0, 0, 0] false).rx.len ∧
    RxUnit.tooLong wide ⟨[0x3e, 0x0c, 0, 0, 0, 0, 0x3e], false⟩ = false := by decide
theorem witness_WireUnitsAtTheHeader :
    (at_ wide [] false).rx = RxUnit.idle ∧ (at_ wide [] false).fault = none ∧
    (0x2e#8 : Byte) ||| 0x10#8 = 0x3e#8 ∧ (0x3d#8 : Byte) ||| 0x10#8 ≠ 0x3e#8 ∧
    wide.escAfterEsc = .unescape := by decide
/-- One state for each clause; the last at lengths 1, 6 (overflow or not) and 8 (the frame completes). -/
theorem witness_EscByteSetsThePendingEscape :
    ((at_ wide [] false).rx.complete = false ∧ (at_ wide [] false).rx.esc = false) ∧
    ((holding small).rx.complete = true ∧ small.escAfterEsc = .rearm) ∧
    (wide.escAfterEsc = .unescape ∧ (at_ wide [] true).rx = ⟨[], true⟩) ∧
    (at_ wide [0x3e] true).rx.complete = false ∧
    (at_ wide [0x3e, 0, 0, 0, 0, 0] true).rx.complete = false ∧
    RxUnit.tooLong wide ⟨[0x3e, 0, 0, 0, 0, 0, 0x3d], false⟩ = false ∧
    RxUnit.tooLong { small with escAfterEsc := .unescape } ⟨[0x3e, 0, 0, 0, 0, 0, 0x3d], false⟩ = true ∧
    (at_ wide (vT2.take 8) true).rx.complete = false ∧
    RxUnit.complete ⟨vT2.take 8 ++ [0x3d], false⟩ = true := by decide
theorem witness_EscEscRearms :
    (at_ small [0x3e] false).fault = none ∧ (at_ small [0x3e] false).rx.complete = false ∧
    (at_ small [0x3e] false).params.escAfterEsc = .rearm := by decide
theorem witness_TypeByteGivesTheKind :
    (at_ small [0x3e] false).rx = ⟨[Config.header], false⟩ ∧ (0x3e#8 : Byte) ≠ 0x01#8 ∧
    (0x3e#8 : Byte) ≠ 0x0c#8 ∧ (0x3e#8 : Byte) ≠ 0x0e#8 := by decide
theorem witness_WireRequestsAreRxParse :
    decode (.wire [0x3d, 0x2d]) = .ok .wireEscEsc ∧ decode (.wire []) = .ok (.rxParse []) ∧
    decode (.typeByte 0x3e) = .ok (.typeUnknown 0x3e) := by decide
theorem witness_PendingEscapeSpansCalls :
    (at_ wide vT1.dropLast false).fault = none ∧ (at_ wide vT1.dropLast false).rx.esc = false ∧
    (at_ wide vT1.dropLast false).rx.complete = false := by decide
theorem witness_StepKeepsTheInvariant :
    (State.resetWith small).Inv ∧ (after (step (State.resetWith small))).isSome = true :=
  ⟨resetWith_inv small, by decide⟩
theorem witness_UnitsShareNoState :
    (after (exec (.checksum [0x01]) (holding small))).isSome = true ∧
    txChkInstr (.checksum [0x01]) = true ∧ rxInstr .wireEsc = true ∧
    (after (exec .wireEsc (holding small))).isSome = true := by decide
/-- Two states that agree on the RX unit, or on nothing but fault and parameters. -/
theorem witness_UnitsLearnNothingOfEachOther :
    (holding small).fault = (at_ small [] true).fault ∧
    (holding small).params = (at_ small [] true).params ∧
    (holding small).rx = ({ holding small with txOut := [0x00] } : State).rx := by decide
theorem witness_UnitOrderHasNoEffect :
    rxInstr .viewRead = true ∧ txChkInstr (.txEncodeAck 0x00) = true ∧
    (after (exec .viewRead (holding small))).map (·.fault) = some none ∧
    (after (exec (.txEncodeAck 0x00) (holding small))).map (·.fault) = some none := by decide
theorem witness_StepKeepsParametersAndOutputs :
    (after (step { holding small with pending := [encode .viewRead] })).isSome = true := by decide
/-- The premises of the clauses: an Ack that changes the session, and the shapes of views. -/
theorem witness_HostCounterFollowsAcks :
    (Session.start.react (.ready ⟨.ack, 0x01, 0x01, [], .ok 0x02⟩ 9)).1 ≠ Session.start ∧
    (MessageView.kind ⟨.unknown, 0x07, 0x00, [], .err 0x07 0x08⟩ = .unknown ∧
      MessageView.chk ⟨.unknown, 0x07, 0x00, [], .err 0x07 0x08⟩ = .err 0x07 0x08) ∧
    viewT1.kind = .command1 ∧ viewT1.chk = .ok 0x0e := by decide
theorem witness_ViewDutyAvoidsStaleView :
    viewDuty (issueAll [.rxParse vT1, .txEncodeAck 0x00] (at_ small [] false)).1 = true ∧
    (issueAll [.rxParse vT1, .txEncodeAck 0x00] (at_ small [] false)).2.fault = none ∧
    rxInstr (.rxParse vT1) = true ∧
    (after (exec (.rxParse vT1) (at_ small [] false))).isSome = true := by decide
/-- R215: after a Ready, an RX_PARSE that records RxOverflow is the last RX operation. -/
theorem test_viewDuty_ends_at_an_overflow :
    viewDuty (issueAll [.rxParse vT1, .rxParse [0x3e, 0x0c, 0, 0, 0, 0, 0x08]]
      (at_ small [] false)).1 = false := by decide

end Sys2Proof.Tests
end

section
/-! Proofs for spec/00_scope.md: what one step of the machine does. -/

namespace Sys2Proof.Proofs
open Sys2Proof.Machine

/-- Settles O5: the two lookups of `step`, the oldest request and its decoding, are decided by the two
premises, and what is left is its run of the instruction. -/
theorem stepRunsTheDecodedInstruction : Obligations.StepRunsTheDecodedInstruction := by
  intro s q rest i hpending hdecode
  unfold step
  rw [hpending]
  simp only [hdecode]

end Sys2Proof.Proofs
end

section
/-! Proofs for spec/10_state.md: the reset values (R35), the invariants of the RX unit (R26), what every
step keeps (R29, R42), and an escape that spans two calls (R23, R34). -/

namespace Sys2Proof.Proofs
open Sys2Proof.Machine

/-! ## The capacity, the length field and the total -/

/-- A smaller frame fits where a larger one does. -/
theorem fits_of_le {c : Config.Capacity} {m n : Nat} (hmn : m ≤ n) (h : fits c n = true) :
    fits c m = true := by
  cases c with
  | unbounded => rfl
  | bytes cap _ =>
    simp only [fits, decide_eq_true_eq] at h ⊢
    omega

/-- Every capacity holds the nine bytes of the smallest frame (R6). -/
theorem fits_nine (c : Config.Capacity) : fits c 9 = true := by
  cases c with
  | unbounded => rfl
  | bytes cap hcap => simpa [fits] using hcap

theorem not_tooLong_iff (p : Config.Params) (r : RxUnit) :
    r.tooLong p = false ↔ ∀ t, r.total = some t → fits p.bufCap t = true := by
  unfold RxUnit.tooLong
  cases r.total <;> simp

/-- The total becomes known with the seventh cell and is the same from there on (R24, R25). -/
theorem total_of_total_append {buf : List Byte} {e : Bool} {v : Byte} {t : Nat}
    (h : RxUnit.total ⟨buf ++ [v], e⟩ = some t) :
    buf.length = 6 ∨ RxUnit.total ⟨buf, e⟩ = some t := by
  cases hold : RxUnit.total ⟨buf, e⟩ with
  | some t₀ => exact .inr ((total_append [v] e hold).symm.trans h)
  | none =>
    have hlt : buf.length < 7 := (total_eq_none_iff ⟨buf, e⟩).1 hold
    have hge : ¬(buf ++ [v]).length < 7 := fun hlt' => by
      simp [(total_eq_none_iff ⟨buf ++ [v], e⟩).2 hlt'] at h
    simp only [List.length_append, List.length_singleton] at hge
    exact .inl (by omega)

theorem not_complete_of_len_lt {r : RxUnit} (h : r.len < 9) : r.complete = false :=
  Bool.eq_false_iff.2 fun hc => absurd (nine_le_len_of_complete hc) (by omega)

theorem not_tooLong_of_len_lt {p : Config.Params} {r : RxUnit} (h : r.len < 7) :
    r.tooLong p = false :=
  (not_tooLong_iff p r).2 fun t ht => by simp [(total_eq_none_iff r).2 h] at ht

/-! ## The RX unit while it reads a frame -/

/-- A sound RX unit between two bytes of a call: no frame is retained, and the frame in progress fits
the buffer. -/
structure Reading (p : Config.Params) (r : RxUnit) : Prop where
  sound : r.Sound p
  notComplete : r.complete = false
  notTooLong : r.tooLong p = false

/-- Before its length field is complete, a unit that starts with a header meets R26. -/
theorem reading_of_len_lt {p : Config.Params} {r : RxUnit} (hlen : r.len < 7)
    (hhead : 1 ≤ r.len → r.buf[0]? = some Config.header) : Reading p r := by
  have hc : r.complete = false := not_complete_of_len_lt (by omega)
  refine ⟨⟨fits_of_le (by omega) (fits_nine _), fun t ht => ?_, hhead, fun h => ?_, fun _ => hc⟩, hc,
    not_tooLong_of_len_lt hlen⟩
  · simp [(total_eq_none_iff r).2 hlen] at ht
  · simp [hc] at h

theorem reading_idle (p : Config.Params) : Reading p RxUnit.idle :=
  reading_of_len_lt (by simp) (by simp)

/-- With no frame retained, the pending-escape flag is free (R26(d)). -/
theorem Reading.setEsc {p : Config.Params} {r : RxUnit} (h : Reading p r) (e : Bool) :
    Reading p ⟨r.buf, e⟩ := by
  obtain ⟨⟨hfits, hle, hhead, -, hzero⟩, hc, hl⟩ := h
  exact ⟨⟨hfits, hle, hhead, fun hc' => absurd (hc.symm.trans hc') (by decide), hzero⟩, hc, hl⟩

/-- The call-start clear (R111) turns a unit with the invariants into one that can read. -/
theorem reading_callStartClear {p : Config.Params} {r : RxUnit} (hs : r.Sound p)
    (hl : r.tooLong p = false) : Reading p (callStartClear r) := by
  cases hc : r.complete with
  | false =>
    rw [callStartClear_of_not_complete hc]
    exact ⟨hs, hc, hl⟩
  | true =>
    have hcleared : callStartClear r = ⟨[], r.esc⟩ := by simp [callStartClear, hc]
    rw [hcleared]
    exact (reading_idle p).setEsc r.esc

/-- Appending a byte keeps R26: the frame fits as a whole, and one of its bytes was still missing. -/
theorem sound_append {p : Config.Params} {buf : List Byte} (v : Byte)
    (h : Reading p ⟨buf, false⟩) (hne : 1 ≤ buf.length) : RxUnit.Sound p ⟨buf ++ [v], false⟩ := by
  obtain ⟨⟨-, hle, hhead, -, -⟩, hc, hl⟩ := h
  have hroom : ∀ t, RxUnit.total ⟨buf, false⟩ = some t → buf.length + 1 ≤ t := fun t ht => by
    have hlet : buf.length ≤ t := hle t ht
    have hnet : t ≠ buf.length := fun heq => by simp [RxUnit.complete, ht, heq] at hc
    omega
  refine ⟨?_, fun t ht => ?_, fun _ => ?_, fun _ => rfl, fun h0 => by simp at h0⟩
  · show fits p.bufCap (buf ++ [v]).length = true
    rw [List.length_append, List.length_singleton]
    cases ht : RxUnit.total ⟨buf, false⟩ with
    | some t => exact fits_of_le (hroom t ht) ((not_tooLong_iff p _).1 hl t ht)
    | none =>
      have hlt : buf.length < 7 := (total_eq_none_iff ⟨buf, false⟩).1 ht
      exact fits_of_le (by omega) (fits_nine _)
  · show (buf ++ [v]).length ≤ t
    rw [List.length_append, List.length_singleton]
    rcases total_of_total_append ht with h6 | hold
    · have := nine_le_total ht
      omega
    · exact hroom t hold
  · show (buf ++ [v])[0]? = some Config.header
    rw [List.getElem?_append_left hne]
    exact hhead hne

/-- Once the length field is complete, appending leaves the declared frame within the capacity. -/
theorem not_tooLong_append {p : Config.Params} {buf : List Byte} {e : Bool} (v : Byte)
    (h6 : buf.length ≠ 6) (hl : RxUnit.tooLong p ⟨buf, e⟩ = false) :
    RxUnit.tooLong p ⟨buf ++ [v], e⟩ = false :=
  (not_tooLong_iff p _).2 fun t ht =>
    (not_tooLong_iff p _).1 hl t ((total_of_total_append ht).resolve_left h6)

/-- Stages 3 and 4 of RX_BYTE keep R26, and only RxOverflow leaves a frame that does not fit (R115). -/
theorem rxAppend_keeps {p : Config.Params} {v : Byte} {buf : List Byte} {r' : RxUnit}
    {res : ByteResult} (h : Reading p ⟨buf, false⟩) (hne : 1 ≤ buf.length)
    (he : rxAppend p v ⟨buf, false⟩ = (r', res)) :
    r'.Sound p ∧ (res ≠ .overflow → r'.tooLong p = false) := by
  have hs := sound_append v h hne
  rcases rxAppend_cases p v ⟨buf, false⟩ with ⟨h1, -⟩ | ⟨h1, hc⟩ | ⟨h1, -, hcap⟩ <;>
    (rw [h1] at he; cases he)
  case inl => exact ⟨hs, fun hno => absurd rfl hno⟩
  case inr.inl =>
    refine ⟨hs, fun _ => not_tooLong_append v (fun h6 => ?_) h.notTooLong⟩
    have := nine_le_len_of_complete hc
    simp [h6] at this
  case inr.inr =>
    refine ⟨hs, fun _ => ?_⟩
    by_cases h6 : buf.length = 6
    · simpa [h6] using hcap
    · exact not_tooLong_append v h6 h.notTooLong

/-- RX_BYTE keeps R26, and only RxOverflow leaves a frame that does not fit (R110, R115). -/
theorem rxByte_keeps {p : Config.Params} {b : Byte} {r r' : RxUnit} {res : ByteResult}
    (h : Reading p r) (he : rxByte p b r = (r', res)) :
    r'.Sound p ∧ (res ≠ .overflow → r'.tooLong p = false) := by
  rcases rxByte_cases p b r with ⟨-, h1⟩ | ⟨-, h1⟩ <;> rw [h1] at he
  case inl =>
    cases he
    exact ⟨(h.setEsc true).sound, fun _ => h.notTooLong⟩
  case inr =>
    rcases rxValue_cases p (if r.esc then unescape b else b) ⟨r.buf, false⟩ with
      ⟨-, hv, h2⟩ | ⟨-, -, h2⟩ | ⟨hne, h2⟩ <;> rw [h2] at he
    · cases he
      have hr : Reading p ⟨[if r.esc then unescape b else b], false⟩ :=
        reading_of_len_lt (by simp) fun _ => congrArg some hv
      exact ⟨hr.sound, fun _ => hr.notTooLong⟩
    · cases he
      exact ⟨(h.setEsc false).sound, fun _ => h.notTooLong⟩
    · exact rxAppend_keeps (h.setEsc false) hne he

/-- Bytes that lead on leave a unit that can read the next one. -/
theorem reading_of_continues {p : Config.Params} {l : List Byte} {r r' : RxUnit} (h : Reading p r)
    (he : continues p l r = some r') : Reading p r' := by
  induction l generalizing r with
  | nil => cases he; exact h
  | cons b bs ih =>
    simp only [continues] at he
    split at he
    · rename_i r₁ hb
      obtain ⟨hs, hl⟩ := rxByte_keeps h hb
      exact ih ⟨hs, not_complete_of_more h.notComplete hb, hl (by simp)⟩ he
    · cases he

/-- RX_PARSE keeps R26, and when it records no fault the frame in progress fits the buffer (R118). -/
theorem rxParse_keeps {p : Config.Params} (chunk : List Byte) {r : RxUnit} (hs : r.Sound p)
    (hl : r.tooLong p = false) :
    (rxParse p chunk r).1.Sound p ∧
    (∀ o, (rxParse p chunk r).2 = .ok o → (rxParse p chunk r).1.tooLong p = false) := by
  have hread := reading_callStartClear hs hl
  unfold rxParse
  rcases rxLoop_cases p chunk 0 (callStartClear r) with
    ⟨r', hgo, he⟩ | ⟨before, b, after, r₁, r', -, hgo, hstop⟩
  · have hr' := reading_of_continues hread hgo
    rw [he]
    exact ⟨hr'.sound, fun _ _ => hr'.notTooLong⟩
  · have hr₁ := reading_of_continues hread hgo
    rcases hstop with ⟨hb, he⟩ | ⟨hb, he⟩ | ⟨hb, he⟩ <;>
      (rw [he]; obtain ⟨hsound, hfit⟩ := rxByte_keeps hr₁ hb)
    · exact ⟨hsound, fun _ _ => hfit (by simp)⟩
    · exact ⟨hsound, fun _ _ => hfit (by simp)⟩
    · exact ⟨hsound, fun _ hok => by cases hok⟩

/-! ## The machine -/

/-- What a step can do: with nothing pending it keeps the state, else it runs the oldest request. -/
theorem step_next_cases {s t : State} (h : step s = .next t) :
    t = s ∨ ∃ rest i, exec i { s with pending := rest } = .next t := by
  unfold step at h
  split at h
  · cases h; exact .inl rfl
  · rename_i q rest _
    split at h
    · cases h
    · rename_i i _
      exact .inr ⟨rest, i, h⟩

@[simp] theorem viewReadOp_fst (s : State) : (viewReadOp s).1 = s := rfl
@[simp] theorem checksumOp_fst (bytes : List Byte) (s : State) : (checksumOp bytes s).1 = s := rfl
@[simp] theorem rxResetOp_fst (s : State) : (rxResetOp s).1 = { s with rx := RxUnit.idle } := rfl

theorem frameOp_fst_rx (ty sq : Byte) (body : List Byte) (s : State) :
    (frameOp ty sq body s).1.rx = s.rx := by
  rcases frameOp_cases ty sq body s with ⟨-, e⟩ | ⟨-, e⟩ <;> rw [e]

theorem frameOp_fst_outcomes (ty sq : Byte) (body : List Byte) (s : State) :
    (frameOp ty sq body s).1.outcomes = s.outcomes := by
  rcases frameOp_cases ty sq body s with ⟨-, e⟩ | ⟨-, e⟩ <;> rw [e]

theorem frameOp_fst_txOut (ty sq : Byte) (body : List Byte) (s : State) :
    s.txOut <+: (frameOp ty sq body s).1.txOut := by
  rcases frameOp_cases ty sq body s with ⟨-, e⟩ | ⟨-, e⟩ <;> rw [e]
  exact List.prefix_append _ _

/-- What an instruction can do to the RX unit: RX_PARSE of some bytes, a return to idle, or nothing. -/
theorem exec_rx_cases {i : Instr} {s t : State} (h : exec i s = .next t) :
    (∃ chunk, operate (rxParseOp chunk) s = .next t) ∨ t.rx = RxUnit.idle ∨ t.rx = s.rx := by
  rcases exec_cases i with ⟨op, rfl⟩ | ⟨-, -, chunk, e⟩ | rfl | rfl | ⟨-, -, -, ty, sq, body, e⟩ |
      ⟨bytes, rfl⟩
  · cases h
  · exact .inl ⟨chunk, e s ▸ h⟩
  · obtain ⟨-, rfl⟩ := (operate_next_iff _ _ _).1 h
    exact .inr (.inl (by simp))
  · obtain ⟨-, rfl⟩ := (operate_next_iff _ _ _).1 h
    exact .inr (.inr (by simp))
  · obtain ⟨-, rfl⟩ := (operate_next_iff _ _ _).1 (e s ▸ h)
    exact .inr (.inr (by simp [frameOp_fst_rx]))
  · obtain ⟨-, rfl⟩ := (operate_next_iff _ _ _).1 h
    exact .inr (.inr (by simp))

theorem rxParse_keeps_inv {chunk : List Byte} {s t : State} (hinv : s.Inv)
    (h : operate (rxParseOp chunk) s = .next t) : t.Inv := by
  obtain ⟨hf, hrx, hp, -, -, hend⟩ := rxParseOp_end h
  obtain ⟨hsound, hfit⟩ := hinv
  obtain ⟨hsound', hfit'⟩ := rxParse_keeps chunk hsound (hfit hf)
  unfold State.Inv
  rw [hrx, hp]
  refine ⟨hsound', fun hnone => ?_⟩
  rcases hend with ⟨o, hok, -⟩ | ⟨f, -, hsome, -⟩
  · exact hfit' o hok
  · exact absurd (hnone.symm.trans hsome) (by simp)

theorem exec_keeps_inv {i : Instr} {s t : State} (hinv : s.Inv) (h : exec i s = .next t) :
    t.Inv := by
  obtain ⟨hp, -⟩ := exec_keeps_params h
  rcases exec_rx_cases h with ⟨chunk, hparse⟩ | hidle | hsame
  · exact rxParse_keeps_inv hinv hparse
  · unfold State.Inv
    rw [hidle]
    exact ⟨(reading_idle _).sound, fun _ => (reading_idle _).notTooLong⟩
  · obtain ⟨hsound, hfit⟩ := hinv
    unfold State.Inv
    rw [hsame, hp]
    exact ⟨hsound, fun _ => hfit (fault_none_of_exec_next h)⟩

/-- Settles O45: a step is idle or executes an instruction, and `Reading` is the invariant that carries
R26 through the bytes of an RX_PARSE. -/
theorem stepKeepsTheInvariant : Obligations.StepKeepsTheInvariant := by
  intro s t hinv h
  rcases step_next_cases h with rfl | ⟨rest, i, hexec⟩
  · exact hinv
  · exact exec_keeps_inv (s := { s with pending := rest }) hinv hexec

/-- Settles O46: an idle RX unit meets R26 for every capacity. -/
theorem resetMeetsTheInvariant : Obligations.ResetMeetsTheInvariant :=
  have hreset : ∀ p, (State.resetWith p).Inv := fun p =>
    ⟨(reading_idle p).sound, fun _ => (reading_idle p).notTooLong⟩
  ⟨hreset, hreset Config.paramsAtReset⟩

/-! ## What every step keeps of the interface -/

theorem conclude_outcomes_prefix (res : Except ModelFault OpOutcome) (s : State) :
    s.outcomes <+: (conclude res s).outcomes := by
  cases res with
  | ok o => exact List.prefix_append _ _
  | error f => exact List.prefix_rfl

/-- An operation that only appends to the records ends in a state whose records have grown. -/
theorem operate_grows {op : State → State × Except ModelFault OpOutcome} {s t : State}
    (h : operate op s = .next t) (ho : (op s).1.outcomes = s.outcomes)
    (hx : s.txOut <+: (op s).1.txOut) : s.txOut <+: t.txOut ∧ s.outcomes <+: t.outcomes := by
  obtain ⟨-, rfl⟩ := (operate_next_iff _ _ _).1 h
  exact ⟨by simpa using hx, ho ▸ conclude_outcomes_prefix _ _⟩

theorem exec_grows {i : Instr} {s t : State} (h : exec i s = .next t) :
    s.txOut <+: t.txOut ∧ s.outcomes <+: t.outcomes := by
  rcases exec_cases i with ⟨op, rfl⟩ | ⟨-, -, chunk, e⟩ | rfl | rfl | ⟨-, -, -, ty, sq, body, e⟩ |
      ⟨bytes, rfl⟩
  · cases h
  · exact operate_grows (e s ▸ h) rfl List.prefix_rfl
  · exact operate_grows h rfl List.prefix_rfl
  · exact operate_grows h rfl List.prefix_rfl
  · exact operate_grows (e s ▸ h) (frameOp_fst_outcomes ..) (frameOp_fst_txOut ..)
  · exact operate_grows h rfl List.prefix_rfl

/-- Settles O50: a step is idle or executes an instruction, which keeps the parameters and only appends
to the two records. -/
theorem stepKeepsParametersAndOutputs : Obligations.StepKeepsParametersAndOutputs := by
  intro s t h
  rcases step_next_cases h with rfl | ⟨rest, i, hexec⟩
  · exact ⟨rfl, List.prefix_rfl, List.prefix_rfl⟩
  · obtain ⟨hp, -⟩ := exec_keeps_params hexec
    obtain ⟨htx, hout⟩ := exec_grows hexec
    exact ⟨hp, htx, hout⟩

/-! ## The reset values -/

/-- At idle every cell is unspecified (R21, R35). -/
@[simp] theorem idle_cell (i : Nat) : RxUnit.idle.cell i = Config.unspecifiedCell i := rfl
@[simp] theorem idle_esc : RxUnit.idle.esc = false := rfl

/-- RX_RESET on a fault-free state (R230). -/
theorem exec_rxReset_of_fault_none {s : State} (h : s.fault = none) :
    exec .rxReset s = .next (deliver .resetDone { s with rx := RxUnit.idle }) :=
  operate_of_fault_none rxResetOp h

/-- Settles O7: power-up and RX_RESET both leave the RX unit at `RxUnit.idle`. -/
theorem resetValues : Obligations.ResetValues := by
  refine ⟨fun p => by simp, ⟨Config.paramsAtReset, rfl⟩, fun s hs => ?_⟩
  exact ⟨_, exec_rxReset_of_fault_none hs, by simp, by simp, hs, by simp⟩

/-! ## An escape that spans two calls -/

/-- The model fault that the end of an operation records, if any (R205). -/
def recorded : Except ModelFault OpOutcome → Option ModelFault
  | .ok _ => none
  | .error f => some f

theorem conclude_fault {s : State} (hs : s.fault = none) (res : Except ModelFault OpOutcome) :
    (conclude res s).fault = recorded res := by
  cases res with
  | ok o => exact hs
  | error f => rfl

/-- Where the count of used bytes starts changes neither the RX unit nor the fault (R118). -/
theorem rxLoop_offset (p : Config.Params) (chunk : List Byte) (i j : Nat) (r : RxUnit) :
    (rxLoop p chunk i r).1 = (rxLoop p chunk j r).1 ∧
    recorded (rxLoop p chunk i r).2 = recorded (rxLoop p chunk j r).2 := by
  induction chunk generalizing i j r with
  | nil => exact ⟨rfl, rfl⟩
  | cons b bs ih =>
    rcases hb : rxByte p b r with ⟨r', res⟩
    cases res with
    | more => simpa only [rxLoop, hb] using ih (i + 1) (j + 1) r'
    | _ => simp [rxLoop, hb, recorded]

/-- A chunk whose first bytes lead on can be cut after them: the second call leaves the RX unit and the
fault of the one call (R34, R123). -/
theorem rxParse_append {p : Config.Params} {before : List Byte} {r r₁ : RxUnit} (rest : List Byte)
    (h : continues p before (callStartClear r) = some r₁) :
    (rxParse p (before ++ rest) r).1 = (rxParse p rest r₁).1 ∧
    recorded (rxParse p (before ++ rest) r).2 = recorded (rxParse p rest r₁).2 := by
  have hc : r₁.complete = false := not_complete_of_continues (callStartClear_not_complete r) h
  unfold rxParse
  rw [rxLoop_append rest 0 h, callStartClear_of_not_complete hc]
  exact rxLoop_offset p rest _ _ r₁

/-- On a fault-free state RX_PARSE has a step, with the unit and the fault of `rxParse` (R118). -/
theorem exec_rxParse_next (chunk : List Byte) {s : State} (hs : s.fault = none) :
    ∃ t, exec (.rxParse chunk) s = .next t ∧ t.rx = (rxParse s.params chunk s.rx).1 ∧
      t.fault = recorded (rxParse s.params chunk s.rx).2 ∧ t.params = s.params :=
  ⟨_, operate_of_fault_none (rxParseOp chunk) hs, by simp [rxParseOp],
    conclude_fault (s := (rxParseOp chunk s).1) hs _, by simp [rxParseOp]⟩

/-- Bytes that lead on are an RX_PARSE that records no fault and leaves the unit they lead to (R117). -/
theorem rxParse_of_continues {p : Config.Params} {chunk : List Byte} {r r₁ : RxUnit}
    (h : continues p chunk (callStartClear r) = some r₁) :
    rxParse p chunk r = (r₁, .ok (.incomplete r₁.needed)) := by
  have happend := rxLoop_append (p := p) [] 0 h
  rw [List.append_nil] at happend
  exact happend

/-- With no escape pending, the ESC byte leads on to the same buffer with an escape pending (R112(a)). -/
theorem continues_esc (p : Config.Params) {r : RxUnit} (he : r.esc = false) :
    continues p [0x3d#8] r = some ⟨r.buf, true⟩ := by
  have hann : announcesEscape p r.esc 0x3d#8 = true := (announcesEscape_iff _ _ _).2 ⟨rfl, .inl he⟩
  simp [continues, rxByte, hann]

/-- Settles O44: the ESC byte leads on, so the chunk of both bytes may be cut after it. -/
theorem pendingEscapeSpansCalls : Obligations.PendingEscapeSpansCalls := by
  intro s x hs hesc hc
  have hgo : continues s.params [0x3d#8] (callStartClear s.rx) = some ⟨s.rx.buf, true⟩ := by
    rw [callStartClear_of_not_complete hc]
    exact continues_esc s.params hesc
  obtain ⟨t, ht, htrx, htfault, htparams⟩ := exec_rxParse_next [0x3d#8] hs
  rw [rxParse_of_continues hgo] at htrx htfault
  obtain ⟨u, hu, hurx, hufault, -⟩ := exec_rxParse_next [x] htfault
  rw [htrx, htparams] at hurx hufault
  obtain ⟨w, hw, hwrx, hwfault, -⟩ := exec_rxParse_next [0x3d#8, x] hs
  obtain ⟨hcutrx, hcutfault⟩ := rxParse_append [x] hgo
  exact ⟨t, u, w, ht, by rw [htrx], by rw [htrx], hu, hw, hwrx.trans (hcutrx.trans hurx.symm),
    hwfault.trans (hcutfault.trans hufault.symm)⟩

end Sys2Proof.Proofs
end

section
/-! Proofs for spec/20_memory.md: the RX unit and the TX and CHK operations share no state (R48). Each
operation acts on one unit's part of the state alone, and R48 is read off the state it then ends in. -/

namespace Sys2Proof.Proofs
open Sys2Proof.Machine

/-! ## Operations of one unit -/

/-- An operation that reads the parameters and the RX unit, and writes the RX unit. -/
def onRx (f : Config.Params → RxUnit → RxUnit × Except ModelFault OpOutcome) (s : State) :
    State × Except ModelFault OpOutcome :=
  ({ s with rx := (f s.params s.rx).1 }, (f s.params s.rx).2)

/-- An operation that reads the parameters, and appends bytes to the TX output stream. -/
def onTx (g : Config.Params → List Byte × Except ModelFault OpOutcome) (s : State) :
    State × Except ModelFault OpOutcome :=
  ({ s with txOut := s.txOut ++ (g s.params).1 }, (g s.params).2)

/-- The outcomes that the end of an operation returns: one, or none with a fault (R205). -/
def returned : Except ModelFault OpOutcome → List OpOutcome
  | .ok o => [o]
  | .error _ => []

theorem returned_all {P : OpOutcome → Prop} {res : Except ModelFault OpOutcome}
    (h : ∀ o, res = .ok o → P o) : ∀ o ∈ returned res, P o := by
  cases res with
  | ok o => simpa [returned] using h
  | error f => simp [returned]

/-- The end of an operation writes the fault and the outcomes only (R205). -/
theorem conclude_eq {s : State} (hs : s.fault = none) (res : Except ModelFault OpOutcome) :
    conclude res s =
      { s with fault := recorded res, outcomes := s.outcomes ++ returned res } := by
  cases res with
  | ok o => simp [deliver, recorded, returned, hs]
  | error f => simp [raiseFault, recorded, returned]

/-- The whole next state of an operation on the RX unit. -/
theorem operate_onRx_next_iff (f : Config.Params → RxUnit → RxUnit × Except ModelFault OpOutcome)
    (s t : State) :
    operate (onRx f) s = .next t ↔ s.fault = none ∧
      t = { s with
        rx := (f s.params s.rx).1
        fault := recorded (f s.params s.rx).2
        outcomes := s.outcomes ++ returned (f s.params s.rx).2 } := by
  rw [operate_next_iff]
  exact and_congr_right fun hs => by rw [conclude_eq (s := (onRx f s).1) hs]; rfl

/-- The whole next state of an operation on the TX output stream. -/
theorem operate_onTx_next_iff (g : Config.Params → List Byte × Except ModelFault OpOutcome)
    (s t : State) :
    operate (onTx g) s = .next t ↔ s.fault = none ∧
      t = { s with
        txOut := s.txOut ++ (g s.params).1
        fault := recorded (g s.params).2
        outcomes := s.outcomes ++ returned (g s.params).2 } := by
  rw [operate_next_iff]
  exact and_congr_right fun hs => by rw [conclude_eq (s := (onTx g s).1) hs]; rfl

/-! ## The instructions of each unit -/

/-- RX_PARSE returns one of the three outcomes of R31. -/
theorem rxOutcome_of_rxParse {p : Config.Params} {chunk : List Byte} {r : RxUnit} {o : OpOutcome}
    (h : (rxParse p chunk r).2 = .ok o) : rxOutcome o = true := by
  unfold rxParse at h
  rcases rxLoop_cases p chunk 0 (callStartClear r) with
    ⟨r', -, he⟩ | ⟨before, b, after, r₁, r', -, -, ⟨-, he⟩ | ⟨-, he⟩ | ⟨-, he⟩⟩ <;>
    rw [he] at h
  · cases h; rfl
  · cases h; rfl
  · cases h; rfl
  · cases h

/-- VIEW_READ on the RX unit alone (R157). -/
def viewReadRx (r : RxUnit) : RxUnit × Except ModelFault OpOutcome :=
  (r, if r.complete then .ok (.view (viewOf r)) else .error .staleView)

theorem rxOutcome_of_viewReadRx {r : RxUnit} {o : OpOutcome} (h : (viewReadRx r).2 = .ok o) :
    rxOutcome o = true := by
  unfold viewReadRx at h
  split at h
  · cases h; rfl
  · cases h

/-- FRAME as the bytes it emits and its end (R170, R173). -/
def frameTx (ty sq : Byte) (body : List Byte) (p : Config.Params) :
    List Byte × Except ModelFault OpOutcome :=
  if p.txMaxBody.val < body.length then ([], .error .txBodyTooLong)
  else (wireOf (coreOf ty sq body), .ok (.frame (wireOf (coreOf ty sq body))))

theorem frameOp_eq_onTx (ty sq : Byte) (body : List Byte) :
    frameOp ty sq body = onTx (frameTx ty sq body) := by
  funext s
  rcases frameOp_cases ty sq body s with ⟨hlt, e⟩ | ⟨hle, e⟩
  · simp [e, onTx, frameTx, hlt]
  · simp [e, onTx, frameTx, Nat.not_lt.2 hle]

theorem not_rxOutcome_of_frameTx {ty sq : Byte} {body : List Byte} {p : Config.Params}
    {o : OpOutcome} (h : (frameTx ty sq body p).2 = .ok o) : rxOutcome o = false := by
  unfold frameTx at h
  split at h
  · cases h
  · cases h; rfl

/-- The RX unit's instructions (R213) act on the RX unit alone and return its outcomes. -/
theorem exec_eq_onRx {i : Instr} (hi : rxInstr i = true) :
    ∃ f, (∀ p r o, (f p r).2 = .ok o → rxOutcome o = true) ∧
      ∀ s, exec i s = operate (onRx f) s := by
  rcases exec_cases i with ⟨op, rfl⟩ | ⟨-, -, chunk, e⟩ | rfl | rfl | ⟨hnot, -⟩ | ⟨bytes, rfl⟩
  · cases hi
  · exact ⟨fun p r => rxParse p chunk r, fun _ _ _ => rxOutcome_of_rxParse, e⟩
  · exact ⟨fun _ _ => (RxUnit.idle, .ok .resetDone), fun _ _ _ h => by cases h; rfl, fun _ => rfl⟩
  · exact ⟨fun _ r => viewReadRx r, fun _ _ _ => rxOutcome_of_viewReadRx, fun _ => rfl⟩
  · exact absurd (hnot.symm.trans hi) (by decide)
  · cases hi

/-- The TX unit's and CHK's instructions (R213) act on the TX output stream alone and return no RX
outcome. -/
theorem exec_eq_onTx {i : Instr} (hi : txChkInstr i = true) :
    ∃ g, (∀ p o, (g p).2 = .ok o → rxOutcome o = false) ∧
      ∀ s, exec i s = operate (onTx g) s := by
  rcases exec_cases i with ⟨op, rfl⟩ | ⟨-, hnot, -⟩ | rfl | rfl | ⟨-, -, -, ty, sq, body, e⟩ |
      ⟨bytes, rfl⟩
  · cases hi
  · exact absurd (hnot.symm.trans hi) (by decide)
  · cases hi
  · cases hi
  · exact ⟨frameTx ty sq body, fun _ _ => not_rxOutcome_of_frameTx,
      fun s => by rw [e, frameOp_eq_onTx]⟩
  · refine ⟨fun _ => ([], .ok (.checksum (checksum bytes))), fun _ _ h => by cases h; rfl, fun s => ?_⟩
    rw [exec_checksum]
    congr 1
    funext s
    simp [checksumOp, onTx]

/-! ## The three readings of R48 -/

/-- Settles O47: an instruction of a unit writes that unit's part of the state alone. -/
theorem unitsShareNoState : Obligations.UnitsShareNoState := by
  intro i s t h
  refine ⟨fun hi => ?_, fun hi => ?_, fun bytes hi => ?_⟩
  · obtain ⟨g, -, e⟩ := exec_eq_onTx hi
    obtain ⟨-, rfl⟩ := (operate_onTx_next_iff g s t).1 (e s ▸ h)
    rfl
  · obtain ⟨f, -, e⟩ := exec_eq_onRx hi
    obtain ⟨-, rfl⟩ := (operate_onRx_next_iff f s t).1 (e s ▸ h)
    rfl
  · subst hi
    obtain ⟨-, rfl⟩ := (operate_next_iff (checksumOp bytes) s t).1 h
    exact ⟨by simp, by simp⟩

/-- Settles O48: what an instruction does is a function of the parameters and of its own unit's state,
on which the two runs agree. -/
theorem unitsLearnNothingOfEachOther : Obligations.UnitsLearnNothingOfEachOther := by
  intro i s s' t hfault hparams h
  refine ⟨fun hi hrx => ?_, fun hi => ?_⟩
  · obtain ⟨f, -, e⟩ := exec_eq_onRx hi
    obtain ⟨hs, rfl⟩ := (operate_onRx_next_iff f s t).1 (e s ▸ h)
    have h' := (e s').trans ((operate_onRx_next_iff f s' _).2 ⟨hfault ▸ hs, rfl⟩)
    rw [← hparams, ← hrx] at h'
    exact ⟨_, _, h', rfl, rfl, rfl, rfl⟩
  · obtain ⟨g, -, e⟩ := exec_eq_onTx hi
    obtain ⟨hs, rfl⟩ := (operate_onTx_next_iff g s t).1 (e s ▸ h)
    have h' := (e s').trans ((operate_onTx_next_iff g s' _).2 ⟨hfault ▸ hs, rfl⟩)
    rw [← hparams] at h'
    exact ⟨_, _, _, h', rfl, rfl, rfl, rfl, rfl⟩

/-- Settles O49: either order ends with the effects of both instructions, and only the outcomes of
different units change places in the record. -/
theorem unitOrderHasNoEffect : Obligations.UnitOrderHasNoEffect := by
  intro i j s a c hi hj ha hafault hc hcfault
  obtain ⟨f, hf, ei⟩ := exec_eq_onRx hi
  obtain ⟨g, hg, ej⟩ := exec_eq_onTx hj
  obtain ⟨-, rfl⟩ := (operate_onRx_next_iff f s a).1 (ei s ▸ ha)
  obtain ⟨-, rfl⟩ := (operate_onTx_next_iff g s c).1 (ej s ▸ hc)
  have hrxOut := returned_all (hf s.params s.rx)
  have htxOut := returned_all (hg s.params)
  refine ⟨_, _, (ej _).trans ((operate_onTx_next_iff g _ _).2 ⟨hafault, rfl⟩),
    (ei _).trans ((operate_onRx_next_iff f _ _).2 ⟨hcfault, rfl⟩), rfl, rfl, hcfault, hafault, ?_, ?_⟩
  · have hnone : (returned (g s.params).2).filter rxOutcome = [] :=
      List.filter_eq_nil_iff.2 fun o ho => by simp [htxOut o ho]
    simp only [List.filter_append, hnone, List.append_nil]
  · have hnone : (returned (f s.params s.rx).2).filter (fun o => !rxOutcome o) = [] :=
      List.filter_eq_nil_iff.2 fun o ho => by simp [hrxOut o ho]
    simp only [List.filter_append, hnone, List.append_nil]

end Sys2Proof.Proofs
end

section
/-! Proofs for spec/30_encoding.md: the decoder and the encoder (R63, R65, R80, R81), the escape
(R63, R64), and the value that each wire unit and type byte carries to the RX unit (R64, R65,
R71). -/

namespace Sys2Proof.Proofs
open Sys2Proof.Machine

/-! ## The operation codes -/

@[simp] theorem opHigh_append (h : BitVec 7) (b : BitVec 1) : opHigh (h ++ b) = h :=
  BitVec.extractLsb'_append_eq_left

@[simp] theorem opBit0_append (h : BitVec 7) (b : BitVec 1) : opBit0 (h ++ b) = b :=
  BitVec.extractLsb'_append_eq_right

theorem opHigh_append_opBit0 (op : Byte) : opHigh op ++ opBit0 op = op := by
  simp only [opHigh, opBit0]
  rw [BitVec.extractLsb'_append_extractLsb'_eq_extractLsb' (by rfl)]
  simp

/-- The two op codes that have the same bits 7 to 1 (R82). -/
theorem opHigh_eq_iff (op : Byte) (h : BitVec 7) :
    opHigh op = h ↔ op = h ++ 0#1 ∨ op = h ++ 1#1 := by
  constructor
  · rintro rfl
    have hop := opHigh_append_opBit0 op
    rcases BitVec.eq_zero_or_eq_one (opBit0 op) with h0 | h1
    · exact .inl (h0 ▸ hop).symm
    · exact .inr (h1 ▸ hop).symm
  · rintro (rfl | rfl) <;> simp

/-- The defined op codes, one disjunct per row of R80. -/
theorem mem_definedOps_iff (op : Byte) :
    op ∈ Config.definedOps ↔
      op = Config.opRxParse ∨ op = Config.opRxReset ∨ op = Config.opViewRead ∨
      opHigh op = Config.opTxEncodeCmd ∨ op = Config.opTxEncodeAck ∨ op = Config.opChecksum := by
  rw [opHigh_eq_iff]
  simp [Config.definedOps, or_assoc]

/-! ## The operands of a transaction -/

@[simp] theorem takeBytes_length (op : Byte) (data : List Byte) (make : List Byte → Instr) :
    takeBytes op data.length data make = .ok (make data) := if_pos rfl

theorem takeBytes_ok {op : Byte} {n : Nat} {data : List Byte} {make : List Byte → Instr} {i : Instr}
    (h : takeBytes op n data make = .ok i) : i = make data := by
  unfold takeBytes at h
  split at h
  · cases h; rfl
  · cases h

theorem noOperand_ok {op : Byte} {j i : Instr} {l : List Operand} (h : noOperand op j l = .ok i) :
    i = j := by
  unfold noOperand at h
  split at h
  · cases h; rfl
  · cases h

theorem bytesOperand_ok {op : Byte} {make : List Byte → Instr} {l : List Operand} {i : Instr}
    (h : bytesOperand op make l = .ok i) : ∃ data, i = make data := by
  unfold bytesOperand at h
  split at h
  · exact ⟨_, takeBytes_ok h⟩
  · cases h

theorem byteOperand_ok {op : Byte} {make : Byte → Instr} {l : List Operand} {i : Instr}
    (h : byteOperand op make l = .ok i) : ∃ v, i = make v := by
  unfold byteOperand at h
  split at h
  · cases h; exact ⟨_, rfl⟩
  · cases h

theorem byteBytesOperand_ok {op : Byte} {make : Byte → List Byte → Instr} {l : List Operand}
    {i : Instr} (h : byteBytesOperand op make l = .ok i) : ∃ v data, i = make v data := by
  unfold byteBytesOperand at h
  split at h
  · exact ⟨_, _, takeBytes_ok h⟩
  · cases h

/-! ## What the decoder answers -/

/-- The six operations of R80. -/
def isOperation : Instr → Bool
  | .rxParse _ => true
  | .rxReset => true
  | .viewRead => true
  | .txEncodeCmd _ _ _ => true
  | .txEncodeAck _ => true
  | .checksum _ => true
  | _ => false

theorem wellFormed_of_isOperation {i : Instr} (h : isOperation i = true) : i.wellFormed = true := by
  cases i with
  | undefinedOp | wireEscAny | typeUnknown => cases h
  | _ => rfl

/-- A transaction whose op is in R80's table gives one of the six operations, if it gives anything;
one whose op is not is the undefined op (R81). -/
theorem decodePort_cases (t : Transaction) :
    (t.op ∈ Config.definedOps ∧ ∀ i, decodePort t = .ok i → isOperation i = true) ∨
    (t.op ∉ Config.definedOps ∧ decodePort t = .ok (.undefinedOp t.op)) := by
  rw [mem_definedOps_iff]
  unfold decodePort
  split
  case isTrue h =>
    exact .inl ⟨.inl h, fun i hi => by obtain ⟨data, rfl⟩ := bytesOperand_ok hi; rfl⟩
  split
  case isTrue h => exact .inl ⟨by simp [h], fun i hi => by rw [noOperand_ok hi]; rfl⟩
  split
  case isTrue h => exact .inl ⟨by simp [h], fun i hi => by rw [noOperand_ok hi]; rfl⟩
  split
  case isTrue h =>
    exact .inl ⟨by simp [h], fun i hi => by obtain ⟨v, data, rfl⟩ := byteBytesOperand_ok hi; rfl⟩
  split
  case isTrue h =>
    exact .inl ⟨by simp [h], fun i hi => by obtain ⟨v, rfl⟩ := byteOperand_ok hi; rfl⟩
  split
  case isTrue h =>
    exact .inl ⟨by simp [h], fun i hi => by obtain ⟨data, rfl⟩ := bytesOperand_ok hi; rfl⟩
  exact .inr ⟨by simp [*], rfl⟩

/-- Exactly the op codes outside R80's table are undefined (R81). -/
theorem decodePort_eq_undefinedOp_iff (t : Transaction) :
    decodePort t = .ok (.undefinedOp t.op) ↔ t.op ∉ Config.definedOps := by
  rcases decodePort_cases t with ⟨hmem, hop⟩ | ⟨hnot, hdec⟩
  · exact ⟨fun h => absurd (hop _ h) (by simp [isOperation]), fun hnot => absurd hmem hnot⟩
  · exact ⟨fun _ => hnot, fun _ => hdec⟩

/-- A pair is one of the three canonical ones, or is ESC_ANY of its second byte (R63, R64). -/
theorem decodePair_cases (x : Byte) :
    (x ∈ Config.canonicalSeconds ∧
      (decodePair x = .wireEscHeader ∨ decodePair x = .wireEscTrailer ∨
        decodePair x = .wireEscEsc)) ∨
    (x ∉ Config.canonicalSeconds ∧ decodePair x = .wireEscAny x) := by
  unfold decodePair Config.canonicalSeconds
  split_ifs <;> simp [*]

/-- A type byte is one of the three known ones, or is Unknown with its value (R65). -/
theorem decodeType_cases (v : Byte) :
    (v ∈ Config.knownTypes ∧
      (decodeType v = .typeAck ∨ decodeType v = .typeCommand1 ∨ decodeType v = .typeCommand2)) ∨
    (v ∉ Config.knownTypes ∧ decodeType v = .typeUnknown v) := by
  unfold decodeType Config.knownTypes
  split_ifs <;> simp [*]

theorem decodeWireByte_cases (b : Byte) :
    decodeWireByte b = .wireHeader ∨ decodeWireByte b = .wireTrailer ∨ decodeWireByte b = .wireEsc ∨
    decodeWireByte b = .rxParse [b] := by
  unfold decodeWireByte
  split_ifs <;> simp

/-- Bytes on the wire are one wire byte, one escape pair, or a chunk (R70; log 18). -/
theorem decodeWire_cases (chunk : List Byte) :
    (∃ b, chunk = [b] ∧ decodeWire chunk = decodeWireByte b) ∨
    (∃ x, chunk = [Config.esc, x] ∧ decodeWire chunk = decodePair x) ∨
    decodeWire chunk = .rxParse chunk := by
  unfold decodeWire
  split
  · exact .inl ⟨_, rfl, rfl⟩
  · split_ifs with hb
    · exact .inr (.inl ⟨_, by rw [hb], rfl⟩)
    · exact .inr (.inr rfl)
  · exact .inr (.inr rfl)

theorem decodePair_wellFormed (x : Byte) : (decodePair x).wellFormed = true := by
  rcases decodePair_cases x with ⟨-, h | h | h⟩ | ⟨hnot, h⟩ <;> rw [h]
  case inr => simpa [Instr.wellFormed] using hnot
  all_goals rfl

theorem decodeType_wellFormed (v : Byte) : (decodeType v).wellFormed = true := by
  rcases decodeType_cases v with ⟨-, h | h | h⟩ | ⟨hnot, h⟩ <;> rw [h]
  case inr => simpa [Instr.wellFormed] using hnot
  all_goals rfl

theorem decodeWire_wellFormed (chunk : List Byte) : (decodeWire chunk).wellFormed = true := by
  rcases decodeWire_cases chunk with ⟨b, -, h⟩ | ⟨x, -, h⟩ | h <;> rw [h]
  · rcases decodeWireByte_cases b with h | h | h | h <;> rw [h] <;> rfl
  · exact decodePair_wellFormed x
  · rfl

theorem decodePort_wellFormed {t : Transaction} {i : Instr} (h : decodePort t = .ok i) :
    i.wellFormed = true := by
  rcases decodePort_cases t with ⟨-, hop⟩ | ⟨hnot, hdec⟩
  · exact wellFormed_of_isOperation (hop i h)
  · cases hdec.symm.trans h
    simpa [Instr.wellFormed] using hnot

/-- Settles O2: each format's decoder takes an "any other value" row only where no other row
matches. -/
theorem decodedIsWellFormed : Obligations.DecodedIsWellFormed := by
  intro q i h
  cases q with
  | port t => exact decodePort_wellFormed h
  | wire chunk => cases h; exact decodeWire_wellFormed chunk
  | typeByte v => cases h; exact decodeType_wellFormed v

/-- Settles O3: the literal list is `Config.definedOps`, and a step decodes before it runs. -/
theorem undefinedOpIsRefused : Obligations.UndefinedOpIsRefused := by
  refine ⟨decodePort_eq_undefinedOp_iff, exec_undefinedOp, fun t rest s hnot hpending => ?_⟩
  exact stepRunsTheDecodedInstruction s _ rest _ hpending
    ((decodePort_eq_undefinedOp_iff t).2 hnot)

/-! ## Decoding what the encoder writes -/

theorem decodePort_txEncodeCmd (b : BitVec 1) (l : List Operand) :
    decodePort ⟨Config.opTxEncodeCmd ++ b, l⟩ =
      byteBytesOperand (Config.opTxEncodeCmd ++ b) (.txEncodeCmd b) l := by
  have hother : ∀ b : BitVec 1, Config.opTxEncodeCmd ++ b ≠ Config.opRxParse ∧
      Config.opTxEncodeCmd ++ b ≠ Config.opRxReset ∧
      Config.opTxEncodeCmd ++ b ≠ Config.opViewRead := by decide
  obtain ⟨hparse, hreset, hview⟩ := hother b
  simp [decodePort, hparse, hreset, hview]

theorem decodePort_txEncodeAck (l : List Operand) :
    decodePort ⟨Config.opTxEncodeAck, l⟩ = byteOperand Config.opTxEncodeAck .txEncodeAck l := by
  dsimp only [decodePort]
  rw [if_neg (by decide), if_neg (by decide), if_neg (by decide), if_neg (by decide), if_pos rfl]

theorem decodePort_checksum (l : List Operand) :
    decodePort ⟨Config.opChecksum, l⟩ = bytesOperand Config.opChecksum .checksum l := by
  dsimp only [decodePort]
  rw [if_neg (by decide), if_neg (by decide), if_neg (by decide), if_neg (by decide),
    if_neg (by decide), if_pos rfl]

/-- A transaction of R80 decodes to the operation it was made from. -/
theorem decode_encode_of_isOperation {i : Instr} (h : isOperation i = true) :
    decode (encode i) = .ok i := by
  cases i with
  | rxParse chunk => exact takeBytes_length Config.opRxParse chunk .rxParse
  | rxReset => rfl
  | viewRead => rfl
  | txEncodeCmd b seq body =>
    exact (decodePort_txEncodeCmd b _).trans (takeBytes_length _ body (.txEncodeCmd b seq))
  | txEncodeAck seq => exact decodePort_txEncodeAck _
  | checksum bytes => exact (decodePort_checksum _).trans (takeBytes_length _ bytes .checksum)
  | _ => cases h

/-- Settles O1: an operation decodes from its op and operands, a named wire unit or type byte from
its fixed bits, and an "any other value" row because no other row has its value. -/
theorem decodeEncodeAgree : Obligations.DecodeEncodeAgree := by
  intro i hwf
  cases i with
  | undefinedOp op =>
    exact (decodePort_eq_undefinedOp_iff ⟨op, []⟩).2 (by simpa [Instr.wellFormed] using hwf)
  | wireEscAny x =>
    have hnot : x ∉ Config.canonicalSeconds := by simpa [Instr.wellFormed] using hwf
    rcases decodePair_cases x with ⟨hmem, -⟩ | ⟨-, h⟩
    · exact absurd hmem hnot
    · exact congrArg Except.ok h
  | typeUnknown raw =>
    have hnot : raw ∉ Config.knownTypes := by simpa [Instr.wellFormed] using hwf
    rcases decodeType_cases raw with ⟨hmem, -⟩ | ⟨-, h⟩
    · exact absurd hmem hnot
    · exact congrArg Except.ok h
  | rxParse | rxReset | viewRead | txEncodeCmd | txEncodeAck | checksum =>
    exact decode_encode_of_isOperation rfl
  | wireHeader | wireTrailer | wireEsc | wireEscHeader | wireEscTrailer | wireEscEsc => rfl
  | typeAck | typeCommand1 | typeCommand2 => rfl

/-- Settles O4: the transactions are encodings of their operations, and the other words are closed.
-/
theorem writtenWordsDecode : Obligations.WrittenWordsDecode :=
  ⟨decode_encode_of_isOperation (i := .rxParse [0x3e#8, 0x0c#8]) rfl,
    decode_encode_of_isOperation (i := .txEncodeCmd 1 0x05#8 [0x01#8]) rfl, rfl, rfl⟩

/-! ## The escape -/

theorem escape_of_not_special {b : Byte} (h : special b = false) : escape b = [b] := by
  simp [escape, h]

theorem escape_of_special {b : Byte} (h : special b = true) :
    escape b = [Config.esc, b &&& Config.escMask] := by
  simp [escape, h]

/-- The second byte of a canonical pair stands for the special byte it was made from (R63, R64). -/
theorem unescape_and_escMask {b : Byte} (h : special b = true) :
    unescape (b &&& Config.escMask) = b := by
  rcases (special_iff b).1 h with rfl | rfl | rfl <;> rfl

/-- The second byte of a canonical pair is no ESC (R63). -/
theorem and_escMask_ne_esc {b : Byte} (h : special b = true) :
    b &&& Config.escMask ≠ Config.esc := by
  rcases (special_iff b).1 h with rfl | rfl | rfl <;> decide

/-- Settles O33: the three special bytes evaluate, and only a special byte is escaped into a pair.
-/
theorem escapingRoundTrips : Obligations.EscapingRoundTrips := by
  refine ⟨rfl, rfl, rfl, fun b hheader htrailer hesc => ?_, fun _ => rfl, fun b x h => ?_⟩
  · refine escape_of_not_special (Bool.eq_false_iff.2 fun hb => ?_)
    rcases (special_iff b).1 hb with h | h | h <;> contradiction
  · rcases escape_cases b with ⟨-, hlit⟩ | ⟨hb, hpair⟩
    · simp [hlit] at h
    · obtain ⟨-, rfl⟩ : Config.esc = 0x3d#8 ∧ b &&& Config.escMask = x := by
        simpa using hpair.symm.trans h
      exact unescape_and_escMask hb

/-! ## Wire bytes that carry one value -/

/-- How an RX_PARSE of `n` bytes ends when only its last byte can stop it: what that byte's RX_BYTE
returned, as the outcome of the call (R116 to R118). -/
def endOfCall (n : Nat) : RxUnit × ByteResult → RxUnit × Except ModelFault OpOutcome
  | (r, .more) => (r, .ok (.incomplete r.needed))
  | (r, .ready) => (r, .ok (.ready (viewOf r) n))
  | (r, .error) => (r, .ok (.error .noMessageHeader n))
  | (r, .overflow) => (r, .error .rxOverflow)

theorem rxLoop_singleton (p : Config.Params) (b : Byte) (i : Nat) (r : RxUnit) :
    rxLoop p [b] i r = endOfCall (i + 1) (rxByte p b r) := by
  rcases h : rxByte p b r with ⟨r', res⟩
  cases res <;> simp only [rxLoop, h, endOfCall]

/-- With no escape pending, the wire bytes give the RX unit the value `v`, at their last byte and in
no other way (R64, R112). -/
def Carries (p : Config.Params) (wire : List Byte) (v : Byte) : Prop :=
  ∀ r : RxUnit, r.esc = false → rxLoop p wire 0 r = endOfCall wire.length (rxValue p v r)

/-- A byte that announces no escape carries itself. -/
theorem carries_literal (p : Config.Params) {b : Byte} (hb : b ≠ Config.esc) : Carries p [b] b := by
  rintro ⟨buf, esc⟩ rfl
  have hann : ¬announcesEscape p false b = true := fun h =>
    hb ((announcesEscape_iff p false b).1 h).1
  rw [rxLoop_singleton]
  simp [rxByte, hann]

/-- An escape pair carries the unescaped second byte, unless that byte announces an escape again
(R64, R112(b)). -/
theorem carries_pair {p : Config.Params} {x : Byte}
    (hx : x ≠ Config.esc ∨ p.escAfterEsc = .unescape) : Carries p [Config.esc, x] (unescape x) := by
  rintro ⟨buf, esc⟩ rfl
  have hann : ¬announcesEscape p true x = true := fun h => by
    obtain ⟨hesc, hre⟩ := (announcesEscape_iff p true x).1 h
    rcases hx with hne | hun
    · exact hne hesc
    · simp [hun] at hre
  have hsplit : rxLoop p [Config.esc, x] 0 ⟨buf, false⟩ = rxLoop p [x] 1 ⟨buf, true⟩ :=
    rxLoop_append [x] 0 (continues_esc p rfl)
  rw [hsplit, rxLoop_singleton]
  simp [rxByte, hann]

/-- The wire form of a byte carries the byte, whatever `ESC_AFTER_ESC` is (R63, R64). -/
theorem carries_escape (p : Config.Params) (b : Byte) : Carries p (escape b) b := by
  cases hb : special b with
  | false =>
    rw [escape_of_not_special hb]
    exact carries_literal p fun h => by simp [special, h] at hb
  | true =>
    have hpair : Carries p [Config.esc, b &&& Config.escMask] (unescape (b &&& Config.escMask)) :=
      carries_pair (.inl (and_escMask_ne_esc hb))
    rw [unescape_and_escMask hb] at hpair
    rw [escape_of_special hb]
    exact hpair

/-! ## The value of each wire unit and type byte -/

/-- Instruction `i` is an RX_PARSE of `n` wire bytes that carry the value `v`. -/
def GivesValue (p : Config.Params) (i : Instr) (v : Byte) (n : Nat) : Prop :=
  ∃ wire, wire.length = n ∧ (∀ s, exec i s = operate (rxParseOp wire) s) ∧ Carries p wire v

theorem givesValue_of_escape {p : Config.Params} {i : Instr} {v : Byte}
    (h : ∀ s, exec i s = operate (rxParseOp (escape v)) s) : GivesValue p i v (escape v).length :=
  ⟨escape v, rfl, h, carries_escape p v⟩

section
variable (p : Config.Params)

theorem givesValue_wireHeader : GivesValue p .wireHeader Config.header 1 :=
  ⟨[Config.header], rfl, fun _ => rfl, carries_literal p (by decide)⟩

theorem givesValue_wireTrailer : GivesValue p .wireTrailer Config.trailer 1 :=
  ⟨[Config.trailer], rfl, fun _ => rfl, carries_literal p (by decide)⟩

theorem givesValue_wireEscHeader : GivesValue p .wireEscHeader Config.header 2 :=
  givesValue_of_escape fun _ => rfl

theorem givesValue_wireEscTrailer : GivesValue p .wireEscTrailer Config.trailer 2 :=
  givesValue_of_escape fun _ => rfl

theorem givesValue_wireEscEsc : GivesValue p .wireEscEsc Config.esc 2 :=
  givesValue_of_escape fun _ => rfl

theorem givesValue_wireEscAny {x : Byte} (hx : x ≠ Config.esc ∨ p.escAfterEsc = .unescape) :
    GivesValue p (.wireEscAny x) (unescape x) 2 :=
  ⟨[Config.esc, x], rfl, fun _ => rfl, carries_pair hx⟩

theorem givesValue_typeAck : GivesValue p .typeAck Config.typeAck 1 :=
  givesValue_of_escape fun _ => rfl

theorem givesValue_typeCommand1 : GivesValue p .typeCommand1 Config.typeCmd1 1 :=
  givesValue_of_escape fun _ => rfl

theorem givesValue_typeCommand2 : GivesValue p .typeCommand2 Config.typeCmd2 1 :=
  givesValue_of_escape fun _ => rfl

theorem givesValue_typeUnknown (raw : Byte) :
    GivesValue p (.typeUnknown raw) raw (escape raw).length :=
  givesValue_of_escape fun _ => rfl

end

/-! ## What a value does to the RX unit -/

section
variable {p : Config.Params} {i : Instr} {v : Byte} {n : Nat} {s : State}

/-- An instruction that gives a value ends as stages 2 to 4 of RX_BYTE do on that value. -/
theorem GivesValue.exec_eq (h : GivesValue p i v n) (hp : s.params = p) (hs : s.fault = none)
    (hesc : s.rx.esc = false) (hc : s.rx.complete = false) {r : RxUnit}
    {res : Except ModelFault OpOutcome} (hend : endOfCall n (rxValue p v s.rx) = (r, res)) :
    exec i s = .next (conclude res { s with rx := r }) := by
  obtain ⟨wire, rfl, hexec, hwire⟩ := h
  have hparse : rxParse p wire s.rx = (r, res) := by
    rw [rxParse, callStartClear_of_not_complete hc, hwire s.rx hesc, hend]
  rw [hexec, operate_of_fault_none _ hs]
  simp only [rxParseOp, hp, hparse]

/-- Inside a frame the value is appended (R114 to R117). -/
theorem GivesValue.appends (h : GivesValue p i v n) : Appends i v n p := by
  intro s hp hs hesc hc hlen hfit
  have hvalue : rxValue p v s.rx = rxAppend p v s.rx :=
    if_neg (Nat.one_le_iff_ne_zero.1 hlen)
  have hcases := rxAppend_cases p v s.rx
  rw [hesc] at hcases
  rcases hcases with ⟨-, hlen7, hlong⟩ | ⟨happ, hdone⟩ | ⟨happ, hdone, -⟩
  · exact absurd ⟨by simpa [RxUnit.len] using hlen7, hlong⟩ hfit
  · rw [if_pos hdone]
    exact h.exec_eq hp hs hesc hc (congrArg (endOfCall n) (hvalue.trans happ))
  · rw [if_neg (by simp [hdone])]
    exact h.exec_eq hp hs hesc hc (congrArg (endOfCall n) (hvalue.trans happ))

/-- At AwaitingHeader the header's value starts a frame, in whatever form it came (R71(f), R113). -/
theorem GivesValue.acceptedAsHeader (h : GivesValue p i Config.header n) :
    AcceptedAsHeader i p := by
  intro s hp hs hrx
  have hvalue : rxValue p Config.header s.rx = (⟨[Config.header], false⟩, .more) := by
    simp [rxValue, hrx]
  exact h.exec_eq hp hs (by simp [hrx]) (by simp [hrx]) (congrArg (endOfCall n) hvalue)

/-- At AwaitingHeader every other value is Error, and the unit stays idle (R71(a), R113, R121). -/
theorem GivesValue.rejectedAtHeader (h : GivesValue p i v n) (hv : v ≠ Config.header) :
    RejectedAtHeader i n p := by
  intro s hp hs hrx
  have hvalue : rxValue p v s.rx = (s.rx, .error) := by simp [rxValue, hrx, hv]
  exact h.exec_eq hp hs (by simp [hrx]) (by simp [hrx]) (congrArg (endOfCall n) hvalue)

/-- With the header alone stored, the value is the type byte of the frame, and no length field is
complete yet (R65, R114, R151). -/
theorem setsType_of_givesValue (h : ∀ p, GivesValue p i v n) : SetsType i v (classify v) := by
  intro s hs hrx
  refine ⟨?_, rfl⟩
  have happ := (h s.params).appends s rfl hs
  rw [hrx] at happ
  exact happ rfl rfl (by simp) (by simp)

end

/-! ## The three statements about the rows -/

/-- Settles O38: every row gives its value, and a value given inside a frame is appended. -/
theorem wireUnitsAppendTheirValues : Obligations.WireUnitsAppendTheirValues := fun p =>
  ⟨(givesValue_wireHeader p).appends, (givesValue_wireTrailer p).appends,
    (givesValue_wireEscHeader p).appends, (givesValue_wireEscTrailer p).appends,
    (givesValue_wireEscEsc p).appends, fun _ hx => (givesValue_wireEscAny p hx).appends,
    (givesValue_typeAck p).appends, (givesValue_typeCommand1 p).appends,
    (givesValue_typeCommand2 p).appends, fun raw => (givesValue_typeUnknown p raw).appends⟩

/-- The ESC byte does not unescape to the header (R64). -/
theorem ne_esc_of_unescape_eq_header {x : Byte} (h : unescape x = Config.header) :
    x ≠ Config.esc := by
  rintro rfl
  exact absurd h (by decide)

/-- Settles O39: every row gives its value, and the header check looks at the value alone. -/
theorem wireUnitsAtTheHeader : Obligations.WireUnitsAtTheHeader := fun p =>
  ⟨(givesValue_wireHeader p).acceptedAsHeader, (givesValue_wireEscHeader p).acceptedAsHeader,
    (givesValue_typeUnknown p Config.header).acceptedAsHeader,
    (givesValue_wireTrailer p).rejectedAtHeader (by decide),
    (givesValue_wireEscTrailer p).rejectedAtHeader (by decide),
    (givesValue_wireEscEsc p).rejectedAtHeader (by decide),
    fun x (hv : unescape x = Config.header) =>
      have hgive := givesValue_wireEscAny p (.inl (ne_esc_of_unescape_eq_header hv))
      GivesValue.acceptedAsHeader (hv ▸ hgive),
    fun _ hv hx => (givesValue_wireEscAny p hx).rejectedAtHeader hv,
    (givesValue_typeAck p).rejectedAtHeader (by decide),
    (givesValue_typeCommand1 p).rejectedAtHeader (by decide),
    (givesValue_typeCommand2 p).rejectedAtHeader (by decide),
    fun raw hv => (givesValue_typeUnknown p raw).rejectedAtHeader hv⟩

/-- Settles O42: every type byte gives its value, and an unknown one is no known type code. -/
theorem typeByteGivesTheKind : Obligations.TypeByteGivesTheKind := by
  refine ⟨setsType_of_givesValue givesValue_typeAck, setsType_of_givesValue givesValue_typeCommand1,
    setsType_of_givesValue givesValue_typeCommand2, fun raw hack hcmd1 hcmd2 => ?_⟩
  have hunknown : classify raw = .unknown := by
    rw [classify_eq_unknown_iff]
    simpa [Config.knownTypes] using ⟨hack, hcmd1, hcmd2⟩
  exact hunknown ▸ setsType_of_givesValue fun p => givesValue_typeUnknown p raw

end Sys2Proof.Proofs
end

section
/-! Proofs for spec/40_checksum.md: CHECKSUM returns the sum of its bytes mod 256 (R100), and the laws
of that sum (R102). -/

namespace Sys2Proof.Proofs
open Sys2Proof.Machine

/-! ## The sum over the shape of the list -/

@[simp] theorem checksum_nil : checksum [] = 0#8 := rfl

@[simp] theorem checksum_cons (b : Byte) (l : List Byte) : checksum (b :: l) = b + checksum l := by
  simp only [checksum_eq_sum, List.sum_cons]

@[simp] theorem checksum_append (l m : List Byte) :
    checksum (l ++ m) = checksum l + checksum m := by
  simp only [checksum_eq_sum, List.sum_append]

/-- The 8-bit sum, which wraps at every carry, is the sum of the natural numbers mod 256. -/
theorem checksum_toNat (l : List Byte) : (checksum l).toNat = (l.map BitVec.toNat).sum % 256 := by
  induction l with
  | nil => rfl
  | cons b l ih =>
    rw [checksum_cons, BitVec.toNat_add, ih, List.map_cons, List.sum_cons, Nat.add_mod_mod]

/-- Settles O28: CHECKSUM hands its state on unchanged, so its end only adds the sum as an outcome. -/
theorem checksumIsTheSumMod256 : Obligations.ChecksumIsTheSumMod256 := by
  intro bytes s hs
  rw [exec_checksum, operate_of_fault_none _ hs, ← checksum_toNat, BitVec.ofNat_toNat,
    BitVec.setWidth_eq]
  rfl

/-! ## The laws of R102 -/

theorem checksum_perm {l m : List Byte} (h : l.Perm m) : checksum l = checksum m := by
  simpa only [checksum_eq_sum] using h.sum_eq

/-- Law (c): the bytes around a replaced byte cancel. -/
theorem checksum_substitution_sub (l m : List Byte) (a b : Byte) :
    checksum (l ++ b :: m) - checksum (l ++ a :: m) = b - a := by
  simp only [checksum_append, checksum_cons]
  ring

/-- Law (c): every single-byte substitution is detected. -/
theorem checksum_substitution_ne (l m : List Byte) {a b : Byte} (h : a ≠ b) :
    checksum (l ++ b :: m) ≠ checksum (l ++ a :: m) := by
  intro heq
  have hzero : b - a = 0 := by rw [← checksum_substitution_sub l m, heq, sub_self]
  exact h (sub_eq_zero.1 hzero).symm

/-- Law (d): two replaced bytes are not detected when their sum stays the same. -/
theorem checksum_two_substitutions (l m n : List Byte) {a b c d : Byte} (h : a + b = c + d) :
    checksum (l ++ a :: m ++ b :: n) = checksum (l ++ c :: m ++ d :: n) := by
  simp only [checksum_append, checksum_cons]
  linear_combination h

theorem checksum_replicate_zero (k : Nat) : checksum (List.replicate k 0#8) = 0#8 := by
  induction k with
  | zero => rfl
  | succ k ih => rw [List.replicate_succ, checksum_cons, ih]; rfl

/-- Settles O29: a swap and a `+1`, `-1` pair are two cases of one law, as both keep the sum of the two
bytes. -/
theorem checksumLaws : Obligations.ChecksumLaws :=
  ⟨checksum_append, fun _ _ => checksum_perm,
    fun l m a b => ⟨checksum_substitution_sub l m a b, checksum_substitution_ne l m⟩,
    fun l m n a b => ⟨checksum_two_substitutions l m n (add_comm a b),
      checksum_two_substitutions l m n (by ring)⟩,
    checksum_replicate_zero⟩

end Sys2Proof.Proofs
end

section
/-! Proofs for spec/41_rx_parser.md: the stages of RX_BYTE (R112 to R116), the phase sequence (R125),
what a call answers (R111, R117, R118, R121, R122), the rows of the wire as calls (R110), that the cut
of a stream into chunks does not matter (R123), and a call on whole frames (R116, R122). -/

namespace Sys2Proof.Proofs
open Sys2Proof.Machine

/-! ## The stages of RX_BYTE -/

/-- A byte that announces an escape appends nothing (R112). -/
theorem rxByte_of_announces {p : Config.Params} {b : Byte} {r : RxUnit}
    (h : b = 0x3d#8 ∧ (r.esc = false ∨ p.escAfterEsc = .rearm)) :
    rxByte p b r = (⟨r.buf, true⟩, .more) := by
  rcases rxByte_cases p b r with ⟨-, e⟩ | ⟨hann, -⟩
  · exact e
  · simp [(announcesEscape_iff p r.esc b).2 h] at hann

/-- Any other byte gives its value to stages 2 to 4, with no escape pending (R112). -/
theorem rxByte_of_not_announces {p : Config.Params} {b : Byte} {r : RxUnit}
    (h : ¬(b = 0x3d#8 ∧ (r.esc = false ∨ p.escAfterEsc = .rearm))) :
    rxByte p b r = rxValue p (if r.esc then unescape b else b) ⟨r.buf, false⟩ := by
  rcases rxByte_cases p b r with ⟨hann, -⟩ | ⟨-, e⟩
  · exact absurd ((announcesEscape_iff p r.esc b).1 hann) h
  · exact e

/-- Under Unescape a second ESC is the data byte `3d` (R112). -/
theorem rxByte_esc_of_unescape {p : Config.Params} {r : RxUnit} (hesc : r.esc = true)
    (hun : p.escAfterEsc = .unescape) : rxByte p 0x3d#8 r = rxValue p 0x3d#8 ⟨r.buf, false⟩ := by
  rw [rxByte_of_not_announces (by simp [hesc, hun]), hesc]
  rfl

/-- At AwaitingHeader the header is stored (R113). -/
theorem rxValue_header (p : Config.Params) {r : RxUnit} (h : r.len = 0) :
    rxValue p 0x3e#8 r = (⟨[0x3e#8], r.esc⟩, .more) := by
  rcases rxValue_cases p 0x3e#8 r with ⟨-, -, e⟩ | ⟨-, hne, -⟩ | ⟨hpos, -⟩
  · exact e
  · exact absurd rfl hne
  · omega

/-- At AwaitingHeader any other value is Error and is not stored (R113). -/
theorem rxValue_not_header (p : Config.Params) {v : Byte} {r : RxUnit} (h : r.len = 0)
    (hv : v ≠ 0x3e#8) : rxValue p v r = (r, .error) := by
  rcases rxValue_cases p v r with ⟨-, heq, -⟩ | ⟨-, -, e⟩ | ⟨hpos, -⟩
  · exact absurd heq hv
  · exact e
  · omega

/-- With no byte stored and no escape pending the unit is idle (R12). -/
theorem eq_idle_of_len_eq_zero {r : RxUnit} (hlen : r.len = 0) (hesc : r.esc = false) :
    r = RxUnit.idle := by
  obtain ⟨buf, esc⟩ := r
  cases List.eq_nil_of_length_eq_zero hlen
  cases hesc
  rfl

/-- What RX_BYTE returns when a value was appended and left the unit `r` (R115, R116). -/
def appendResult (p : Config.Params) (r : RxUnit) : ByteResult :=
  if r.len = 7 ∧ r.tooLong p = true then .overflow else if r.complete = true then .ready else .more

/-- Inside a frame every value is appended (R114). -/
theorem rxValue_append (p : Config.Params) (v : Byte) {r : RxUnit} (h : 1 ≤ r.len) :
    rxValue p v r = (⟨r.buf ++ [v], r.esc⟩, appendResult p ⟨r.buf ++ [v], r.esc⟩) := by
  have hvalue : rxValue p v r = rxAppend p v r := if_neg (Nat.one_le_iff_ne_zero.1 h)
  rw [hvalue]
  rcases rxAppend_cases p v r with ⟨e, hcap⟩ | ⟨e, hdone⟩ | ⟨e, hdone, hcap⟩
  · rw [e, appendResult, if_pos hcap]
  · have hlen := nine_le_len_of_complete hdone
    rw [e, appendResult, if_neg fun hcap => by omega, if_pos hdone]
  · rw [e, appendResult, if_neg hcap, if_neg (by simp [hdone])]

section
variable {p : Config.Params} {r : RxUnit}

theorem appendResult_ne_error : appendResult p r ≠ .error := by
  unfold appendResult
  split_ifs <;> simp

theorem appendResult_eq_overflow_iff :
    appendResult p r = .overflow ↔ r.len = 7 ∧ r.tooLong p = true := by
  unfold appendResult
  split_ifs <;> simp [*]

/-- Away from the length field only completion counts (R116). -/
theorem appendResult_of_len_ne (h : r.len ≠ 7) :
    appendResult p r = if r.complete = true then .ready else .more :=
  if_neg fun hcap => h hcap.1

/-- No frame is complete with the length field, so there only the capacity counts (R25, R115). -/
theorem appendResult_of_len_lt (h : r.len < 9) :
    appendResult p r = if r.len = 7 ∧ r.tooLong p = true then .overflow else .more := by
  simp [appendResult, not_complete_of_len_lt h]

theorem appendResult_eq_ready_iff : appendResult p r = .ready ↔ r.complete = true := by
  by_cases h : r.len < 9
  · rw [appendResult_of_len_lt h, not_complete_of_len_lt h]
    split_ifs <;> simp
  · rw [appendResult_of_len_ne (by omega)]
    split_ifs <;> simp [*]

/-- From the seventh byte on the total is known (R24, R25). -/
theorem exists_total (h : 7 ≤ r.len) : ∃ t, r.total = some t :=
  Option.ne_none_iff_exists'.1 fun hnone => absurd ((total_eq_none_iff r).1 hnone) (by omega)

/-- The frame total is `9 + L` (R25). -/
theorem total_eq_some_iff {t : Nat} :
    r.total = some t ↔ ∃ l, r.declared = some l ∧ t = 9 + l.toNat := by
  simp only [RxUnit.total, Option.map_eq_some_iff, totalOf, Config.hdrLen, Config.trlLen]
  refine exists_congr fun l => and_congr_right fun _ => ?_
  omega

end

/-- Settles O12: the two branches of stage 1, with `UNESC_OR` evaluated to `0x10`. -/
theorem escapeStage : Obligations.EscapeStage :=
  fun _ _ _ => ⟨rxByte_of_announces, rxByte_of_not_announces⟩

/-- Settles O13: the header check, and the two escaped bytes of corner case (c), whose values are
`3e` and `10`. -/
theorem headerCheck : Obligations.HeaderCheck := by
  refine ⟨fun p r hlen hesc => ?_, fun p v r hlen hesc hv => ?_, fun p => ⟨?_, ?_⟩⟩
  · rw [rxValue_header p hlen, hesc]
  · rw [rxValue_not_header p hlen hv, eq_idle_of_len_eq_zero hlen hesc]
  · rw [rxByte_of_not_announces (by simp)]
    exact rxValue_header p rfl
  · rw [rxByte_of_not_announces (by simp)]
    exact rxValue_not_header p rfl (by decide)

/-- Settles O14: inside a frame the result is `appendResult` of the longer buffer. -/
theorem appendAndCompletion : Obligations.AppendAndCompletion := by
  intro p v buf e hpos
  refine ⟨_, rxValue_append p v hpos, ?_, ?_, appendResult_ne_error⟩
  · rw [appendResult_eq_overflow_iff, tooLong_iff]
    simp
  · rw [appendResult_eq_ready_iff, complete_iff, total_eq_some_iff]
    simp

/-! ## The phase sequence -/

/-- What each phase says of the buffer (R13). -/
def phaseHolds (r : RxUnit) : Phase → Prop
  | .awaitingHeader => r.len = 0
  | .readingTypeAndSeq => 1 ≤ r.len ∧ r.len ≤ 2
  | .readingLength => 3 ≤ r.len ∧ r.len ≤ 6
  | .readingPayloadAndTrailer => 7 ≤ r.len ∧ r.complete = false
  | .complete => r.complete = true

theorem phaseHolds_phase (r : RxUnit) : phaseHolds r r.phase := by
  unfold RxUnit.phase
  split_ifs with hc h0 h2 h6
  · exact hc
  · exact h0
  · exact ⟨Nat.one_le_iff_ne_zero.2 h0, h2⟩
  · exact ⟨Nat.lt_of_not_le h2, h6⟩
  · exact ⟨Nat.lt_of_not_le h6, Bool.eq_false_iff.2 hc⟩

/-- The phases exclude each other, as a complete frame has nine bytes. -/
theorem phase_eq_iff (r : RxUnit) (ph : Phase) : r.phase = ph ↔ phaseHolds r ph := by
  refine ⟨fun h => h ▸ phaseHolds_phase r, fun h => ?_⟩
  unfold RxUnit.phase
  cases ph with
  | awaitingHeader =>
    have hlen : r.len = 0 := h
    simp [not_complete_of_len_lt (r := r) (by omega), hlen]
  | readingTypeAndSeq =>
    obtain ⟨hpos, hle⟩ := h
    simp [not_complete_of_len_lt (r := r) (by omega), Nat.one_le_iff_ne_zero.1 hpos, hle]
  | readingLength =>
    obtain ⟨hpos, hle⟩ := h
    rw [if_neg (by simp [not_complete_of_len_lt (r := r) (by omega)]), if_neg (by omega),
      if_neg (by omega), if_pos hle]
  | readingPayloadAndTrailer =>
    obtain ⟨hpos, hc⟩ := h
    rw [if_neg (by simp [hc]), if_neg (by omega), if_neg (by omega), if_neg (by omega)]
  | complete => exact if_pos h

section
variable {p : Config.Params} {r : RxUnit} (v : Byte)

theorem len_append (r : RxUnit) : RxUnit.len ⟨r.buf ++ [v], r.esc⟩ = r.len + 1 :=
  List.length_append

/-- The type and sequence bytes lead on (R114). -/
theorem appendResult_typeAndSeq (h : r.len ≤ 2) :
    appendResult p ⟨r.buf ++ [v], r.esc⟩ = .more := by
  have hlen := len_append v r
  rw [appendResult_of_len_lt (by omega), if_neg (by omega)]

/-- The second of the two ends the phase (R125). -/
theorem phase_append_typeAndSeq (hpos : 1 ≤ r.len) (h : r.len ≤ 2) :
    RxUnit.phase ⟨r.buf ++ [v], r.esc⟩ =
      if RxUnit.len ⟨r.buf ++ [v], r.esc⟩ = 3 then .readingLength else .readingTypeAndSeq := by
  have hlen := len_append v r
  split_ifs <;> rw [phase_eq_iff, phaseHolds] <;> omega

/-- The fourth length byte ends the phase (R125). -/
theorem phase_append_length (hpos : 3 ≤ r.len) (h : r.len ≤ 6) :
    RxUnit.phase ⟨r.buf ++ [v], r.esc⟩ =
      if RxUnit.len ⟨r.buf ++ [v], r.esc⟩ = 7 then .readingPayloadAndTrailer else .readingLength := by
  have hlen := len_append v r
  split_ifs with h7 <;> rw [phase_eq_iff, phaseHolds]
  · exact ⟨h7.ge, not_complete_of_len_lt (by omega)⟩
  · omega

/-- Once the total is known, the frame is complete when `len` reaches it (R25). -/
theorem complete_append_iff {t : Nat} (ht : r.total = some t) :
    RxUnit.complete ⟨r.buf ++ [v], r.esc⟩ = true ↔ RxUnit.len ⟨r.buf ++ [v], r.esc⟩ = t := by
  have htotal : RxUnit.total ⟨r.buf ++ [v], r.esc⟩ = some t := total_append [v] r.esc ht
  rw [complete_iff, htotal, Option.some_inj, eq_comm]

/-- The last byte of the frame is Ready (R116). -/
theorem appendResult_payload {t : Nat} (hpos : 7 ≤ r.len) (ht : r.total = some t) :
    appendResult p ⟨r.buf ++ [v], r.esc⟩ =
      if RxUnit.len ⟨r.buf ++ [v], r.esc⟩ = t then .ready else .more := by
  have hlen := len_append v r
  rw [appendResult_of_len_ne (by omega)]
  exact if_congr (complete_append_iff v ht) rfl rfl

/-- The last byte of the frame ends the phase (R125). -/
theorem phase_append_payload {t : Nat} (hpos : 7 ≤ r.len) (ht : r.total = some t) :
    RxUnit.phase ⟨r.buf ++ [v], r.esc⟩ =
      if RxUnit.len ⟨r.buf ++ [v], r.esc⟩ = t then .complete else .readingPayloadAndTrailer := by
  have hlen := len_append v r
  split_ifs with hend <;> rw [phase_eq_iff, phaseHolds]
  · exact (complete_append_iff v ht).2 hend
  · exact ⟨by omega, Bool.eq_false_iff.2 fun hc => hend ((complete_append_iff v ht).1 hc)⟩

end

/-- The call-start clear of a retained frame (R111). -/
theorem callStartClear_of_complete {r : RxUnit} (h : r.complete = true) :
    callStartClear r = ⟨[], r.esc⟩ := by
  simp [callStartClear, h]

/-- Settles O15: each phase is a range of `len`, each value inside a frame adds one byte, and the result
is `appendResult` of the longer buffer. -/
theorem phaseSequenceFollowsTheTable : Obligations.PhaseSequenceFollowsTheTable := by
  intro p r _
  simp only [phase_eq_iff r, phaseHolds]
  refine ⟨fun hesc => rxByte_of_announces ⟨rfl, .inl hesc⟩, rxByte_esc_of_unescape,
    fun hesc hre => ?_, fun hlen => ⟨_, rxValue_header p hlen, rfl, rfl⟩,
    fun hlen _ => rxValue_not_header p hlen, ?_, ?_, ?_, fun hc => ?_⟩
  · rw [rxByte_of_announces ⟨rfl, .inr hre⟩, ← hesc]
  · rintro ⟨hpos, hle⟩ v
    refine ⟨_, ?_, len_append v r, phase_append_typeAndSeq v hpos hle⟩
    rw [rxValue_append p v hpos, appendResult_typeAndSeq v hle]
  · rintro ⟨hpos, hle⟩ v
    have hlen := len_append v r
    exact ⟨_, _, rxValue_append p v (by omega), hlen, phase_append_length v hpos hle,
      appendResult_of_len_lt (by omega)⟩
  · rintro ⟨hpos, -⟩ v
    obtain ⟨t, ht⟩ := exists_total hpos
    exact ⟨_, _, t, ht, rxValue_append p v (by omega), len_append v r,
      appendResult_payload v hpos ht, phase_append_payload v hpos ht⟩
  · rw [callStartClear_of_complete hc]
    rfl

/-! ## What a call answers -/

/-- The state in which an RX_PARSE on `s` ends when RX_BYTE left the unit `r` and returned `res` at the
`n`-th byte of the chunk; `more` is the end of a chunk that was used up (R118). -/
def endOfParse (s : State) (n : Nat) (r : RxUnit) : ByteResult → State
  | .more => { s with rx := r, outcomes := s.outcomes ++ [.incomplete r.needed] }
  | .ready => { s with rx := r, outcomes := s.outcomes ++ [.ready (viewOf r) n] }
  | .error => { s with rx := r, outcomes := s.outcomes ++ [.error .noMessageHeader n] }
  | .overflow => { s with rx := r, fault := some .rxOverflow }

theorem exec_rxParse_of_rxLoop {chunk : List Byte} {s : State} {n : Nat} {r : RxUnit}
    {res : ByteResult} (hs : s.fault = none)
    (h : rxLoop s.params chunk 0 (callStartClear s.rx) = endOfCall n (r, res)) :
    exec (.rxParse chunk) s = .next (endOfParse s n r res) := by
  rw [exec_rxParse, operate_of_fault_none _ hs]
  simp only [rxParseOp, rxParse, h]
  cases res <;> rfl

/-- A chunk whose bytes all lead on is used up (R117). -/
theorem exec_rxParse_of_continues {chunk : List Byte} {s : State} {r : RxUnit} (hs : s.fault = none)
    (h : continues s.params chunk (callStartClear s.rx) = some r) :
    exec (.rxParse chunk) s = .next (endOfParse s 0 r .more) :=
  exec_rxParse_of_rxLoop hs (rxParse_of_continues h)

/-- A byte that does not lead on ends the call, and the bytes after it are not read (R116, R118). -/
theorem exec_rxParse_of_stop {before : List Byte} {b : Byte} {s : State} {r r' : RxUnit}
    {res : ByteResult} (after : List Byte) (hs : s.fault = none)
    (hgo : continues s.params before (callStartClear s.rx) = some r)
    (hb : rxByte s.params b r = (r', res)) (hstop : res ≠ .more) :
    exec (.rxParse (before ++ b :: after)) s = .next (endOfParse s (before.length + 1) r' res) := by
  refine exec_rxParse_of_rxLoop hs ?_
  rw [rxLoop_append _ 0 hgo, Nat.zero_add]
  cases res with
  | more => exact absurd rfl hstop
  | _ => simp only [rxLoop, hb, endOfCall]

/-- A call of one byte ends as RX_BYTE does. -/
theorem exec_rxParse_singleton {b : Byte} {s : State} {r : RxUnit} {res : ByteResult}
    (hs : s.fault = none) (hb : rxByte s.params b (callStartClear s.rx) = (r, res)) :
    exec (.rxParse [b]) s = .next (endOfParse s 1 r res) :=
  exec_rxParse_of_rxLoop hs ((rxLoop_singleton _ _ _ _).trans (by rw [hb]))

/-- What RX_PARSE can do: use up the chunk, or stop at the first byte that does not lead on. -/
theorem exec_rxParse_cases {chunk : List Byte} {s t : State} (h : exec (.rxParse chunk) s = .next t) :
    (∃ r, continues s.params chunk (callStartClear s.rx) = some r ∧ t = endOfParse s 0 r .more) ∨
    ∃ before b after r r' res, chunk = before ++ b :: after ∧
      continues s.params before (callStartClear s.rx) = some r ∧
      rxByte s.params b r = (r', res) ∧ res ≠ .more ∧
      t = endOfParse s (before.length + 1) r' res := by
  have hs := fault_none_of_exec_next h
  rcases rxLoop_cases s.params chunk 0 (callStartClear s.rx) with
    ⟨r, hgo, -⟩ | ⟨before, b, after, r, r', rfl, hgo, hstop⟩
  · exact .inl ⟨r, hgo, by simpa [h] using exec_rxParse_of_continues hs hgo⟩
  · obtain ⟨res, hb, hne⟩ : ∃ res, rxByte s.params b r = (r', res) ∧ res ≠ .more := by
      rcases hstop with ⟨hb, -⟩ | ⟨hb, -⟩ | ⟨hb, -⟩ <;> exact ⟨_, hb, by simp⟩
    exact .inr ⟨before, b, after, r, r', res, rfl, hgo, hb, hne,
      by simpa [h] using exec_rxParse_of_stop after hs hgo hb hne⟩

/-- Settles O16: a call ends as `endOfParse` says, at the end of the chunk or at the byte that does not
lead on. -/
theorem rxParseFollowsItsBytes : Obligations.RxParseFollowsItsBytes :=
  ⟨fun _ hs => ⟨fun _ _ hgo => exec_rxParse_of_continues hs hgo,
    fun _ after _ _ _ hgo hb => exec_rxParse_of_stop after hs hgo hb (by simp),
    fun _ after _ _ _ hgo hb => exec_rxParse_of_stop after hs hgo hb (by simp),
    fun _ after _ _ _ hgo hb => exec_rxParse_of_stop after hs hgo hb (by simp)⟩,
    fun chunk _ _ hf => operate_of_fault (rxParseOp chunk) hf⟩

/-- The count of used bytes that an outcome reports (R31). -/
def consumedOf : OpOutcome → Option Nat
  | .ready _ c => some c
  | .error _ c => some c
  | _ => none

/-- A call whose outcome counts its bytes stopped at the byte it counts last, and the bytes after that
one had no effect (R118, R119). -/
theorem stop_of_consumed {chunk : List Byte} {s t : State} {o : OpOutcome} {c : Nat}
    (h : exec (.rxParse chunk) s = .next t) (ho : t.outcomes = s.outcomes ++ [o])
    (hc : consumedOf o = some c) :
    (∃ b r r' res, rxByte s.params b r = (r', res) ∧ res ≠ .more ∧ t = endOfParse s c r' res) ∧
    1 ≤ c ∧ c ≤ chunk.length ∧ ∀ rest, exec (.rxParse (chunk.take c ++ rest)) s = .next t := by
  rcases exec_rxParse_cases h with
    ⟨r, -, rfl⟩ | ⟨before, b, after, r, r', res, rfl, hgo, hb, hne, rfl⟩
  · obtain rfl : .incomplete r.needed = o := by simpa [endOfParse] using ho
    simp [consumedOf] at hc
  · obtain rfl : before.length + 1 = c := by
      cases res with
      | more => exact absurd rfl hne
      | ready =>
        obtain rfl : .ready (viewOf r') (before.length + 1) = o := by simpa [endOfParse] using ho
        exact Option.some_inj.1 hc
      | error =>
        obtain rfl : .error .noMessageHeader (before.length + 1) = o := by
          simpa [endOfParse] using ho
        exact Option.some_inj.1 hc
      | overflow => simp [endOfParse] at ho
    refine ⟨⟨b, r, r', res, hb, hne, rfl⟩, by omega, by simp, fun rest => ?_⟩
    have htake : (before ++ b :: after).take (before.length + 1) ++ rest = before ++ b :: rest := by
      simp [List.take_append]
    rw [htake]
    exact exec_rxParse_of_stop rest (fault_none_of_exec_next h) hgo hb hne

/-- Settles O17: only a byte that gives Error ends a call with that outcome, and it leaves the unit
idle. -/
theorem errorLeavesTheUnitIdle : Obligations.ErrorLeavesTheUnitIdle := by
  intro chunk s t k c h ho
  have hs := fault_none_of_exec_next h
  obtain ⟨⟨b, r, r', res, hb, hne, rfl⟩, hpos, hle, hrest⟩ := stop_of_consumed h ho rfl
  cases res with
  | error => exact ⟨idle_of_error hb, hs, rfl, hpos, hle, hrest⟩
  | _ => simp [endOfParse] at ho hne

/-- Settles O18: only a byte that gives Ready ends a call with that outcome, and it leaves the frame
complete. -/
theorem unreadBytesHaveNoEffect : Obligations.UnreadBytesHaveNoEffect := by
  intro chunk s t v c h ho
  obtain ⟨⟨b, r, r', res, hb, hne, rfl⟩, hpos, hle, hrest⟩ := stop_of_consumed h ho rfl
  cases res with
  | ready =>
    obtain ⟨hdone, -⟩ := complete_of_ready hb
    exact ⟨hpos, hle, hdone, by simpa [endOfParse] using ho.symm, hrest⟩
  | _ => simp [endOfParse] at ho hne

/-- With the length field known and the frame not complete, at least one byte is missing (R117). -/
theorem needed_of_reading {p : Config.Params} {r : RxUnit} (h : Reading p r) (hlen : 7 ≤ r.len) :
    ∃ l k, r.declared = some l ∧ r.needed = some k ∧ 1 ≤ k ∧ r.len + k = 9 + l.toNat := by
  obtain ⟨t, ht⟩ := exists_total hlen
  obtain ⟨l, hl, rfl⟩ := total_eq_some_iff.1 ht
  obtain ⟨-, hle, -⟩ := h.sound
  have hroom := hle _ ht
  have hne : r.len ≠ 9 + l.toNat := fun heq => by
    have := (complete_iff r).2 (heq ▸ ht)
    simp [h.notComplete] at this
  exact ⟨l, 9 + l.toNat - r.len, hl, by simp [RxUnit.needed, ht], by omega, by omega⟩

/-- Before the length field is complete the count is not known (R117). -/
theorem needed_of_len_lt {r : RxUnit} (h : r.len < 7) : r.needed = none := by
  simp [RxUnit.needed, (total_eq_none_iff r).2 h]

/-- Settles O19: bytes that lead on keep `Reading`, which leaves a byte missing; and no other call ends
with Incomplete. -/
theorem incompleteReportsWhatIsNeeded : Obligations.IncompleteReportsWhatIsNeeded := by
  refine ⟨fun chunk s r hinv hs hgo => ?_, fun chunk s t needed h ho => ?_⟩
  · obtain ⟨hsound, hfit⟩ := hinv
    have hr := reading_of_continues (reading_callStartClear hsound (hfit hs)) hgo
    exact ⟨_, exec_rxParse_of_continues hs hgo, hr.notComplete, needed_of_len_lt, needed_of_reading hr⟩
  · rcases exec_rxParse_cases h with ⟨r, hgo, rfl⟩ | ⟨before, b, after, r, r', res, -, -, -, hne, rfl⟩
    · exact hgo
    · cases res <;> simp [endOfParse] at ho hne

/-- Settles O22: of the ends of a call only the one at RxOverflow records a fault. -/
theorem overflowIsRecordedAtTheLengthField : Obligations.OverflowIsRecordedAtTheLengthField := by
  intro chunk s t h hf
  have hs := fault_none_of_exec_next h
  rcases exec_rxParse_cases h with ⟨r, -, rfl⟩ | ⟨before, b, after, r, r', res, -, -, hb, -, rfl⟩
  · exact absurd hs hf
  · cases res with
    | overflow =>
      obtain ⟨hlen, hlong, -⟩ := overflow_spec hb
      exact ⟨rfl, hlen, rfl, rfl, (tooLong_iff _ _).1 hlong⟩
    | _ => exact absurd hs hf

/-- Settles O20: an empty chunk leaves what the call-start clear leaves. -/
theorem emptyChunkDropsTheRetainedFrame : Obligations.EmptyChunkDropsTheRetainedFrame := by
  intro s hs
  have h := exec_rxParse_of_continues (chunk := []) hs rfl
  refine ⟨fun hc => ?_, fun hc => ?_⟩
  · rw [h, callStartClear_of_complete hc]
    rfl
  · rw [h, callStartClear_of_not_complete hc]
    rfl

/-! ## The rows of the wire -/

theorem exec_decodeWireByte (b : Byte) (s : State) :
    exec (decodeWireByte b) s = exec (.rxParse [b]) s := by
  unfold decodeWireByte
  split_ifs with h h h
  · rw [h]; rfl
  · rw [h]; rfl
  · rw [h]; rfl
  · rfl

theorem exec_decodePair (x : Byte) (s : State) :
    exec (decodePair x) s = exec (.rxParse [Config.esc, x]) s := by
  unfold decodePair
  split_ifs with h h h
  · rw [h]; rfl
  · rw [h]; rfl
  · rw [h]; rfl
  · rfl

theorem exec_decodeType (v : Byte) (s : State) :
    exec (decodeType v) s = exec (.rxParse (escape v)) s := by
  unfold decodeType
  split_ifs with h h h
  · rw [h]; rfl
  · rw [h]; rfl
  · rw [h]; rfl
  · rfl

/-- Settles O43: the rows of each format, one wire byte, one pair or one type byte, are RX_PARSE of the
bytes that they are decoded from. -/
theorem wireRequestsAreRxParse : Obligations.WireRequestsAreRxParse := by
  refine ⟨fun chunk i s h => ?_, fun v i s h => ?_⟩
  · cases h
    rcases decodeWire_cases chunk with ⟨b, rfl, e⟩ | ⟨x, rfl, e⟩ | e
    · exact exec_decodeWireByte b s
    · exact exec_decodePair x s
    · rw [e]
  · cases h
    exact exec_decodeType v s

/-- Settles O40: WIRE.ESC is RX_PARSE of the one byte ESC, which announces an escape or is the data byte
`3d`. -/
theorem escByteSetsThePendingEscape : Obligations.EscByteSetsThePendingEscape := by
  refine ⟨fun s hs hc hann => ?_, fun s hs hc hann => ?_, fun s hs hun hrx => ?_,
    fun s buf hs hun hrx hc hpos => ?_⟩
  · have hb : rxByte s.params 0x3d#8 (callStartClear s.rx) = (⟨s.rx.buf, true⟩, .more) := by
      rw [callStartClear_of_not_complete hc]
      exact rxByte_of_announces ⟨rfl, hann⟩
    exact exec_rxParse_singleton hs hb
  · have hb : rxByte s.params 0x3d#8 (callStartClear s.rx) = (⟨[], true⟩, .more) := by
      rw [callStartClear_of_complete hc]
      exact rxByte_of_announces ⟨rfl, hann⟩
    exact exec_rxParse_singleton hs hb
  · have hb : rxByte s.params 0x3d#8 (callStartClear s.rx) = (RxUnit.idle, .error) := by
      rw [hrx, callStartClear_of_not_complete rfl, rxByte_esc_of_unescape rfl hun]
      exact rxValue_not_header s.params rfl (by decide)
    exact exec_rxParse_singleton hs hb
  · intro r
    have hb : rxByte s.params 0x3d#8 (callStartClear s.rx) = (r, appendResult s.params r) := by
      rw [callStartClear_of_not_complete hc, hrx, rxByte_esc_of_unescape rfl hun]
      exact rxValue_append s.params _ hpos
    refine (exec_rxParse_singleton hs hb).trans ?_
    have hlen : r.len = 7 ↔ buf.length = 6 := by simp [r]
    simp only [appendResult, hlen]
    split_ifs <;> rfl

/-- Settles O41: under Rearm both bytes of the pair announce an escape. -/
theorem escEscRearms : Obligations.EscEscRearms := by
  intro s hs hc hre
  refine exec_rxParse_of_continues (chunk := [0x3d#8, 0x3d#8]) hs (r := ⟨s.rx.buf, true⟩) ?_
  have hesc : ∀ r, rxByte s.params 0x3d#8 r = (⟨r.buf, true⟩, .more) := fun _ =>
    rxByte_of_announces ⟨rfl, .inr hre⟩
  simp only [continues, callStartClear_of_not_complete hc, hesc]

/-! ## The cut of a stream into chunks -/

/-- The call-start clear is made once before each byte (R111). -/
theorem wireEvents_callStartClear (p : Config.Params) (stream : List Byte) (pos : Nat) {r : RxUnit} :
    wireEvents p stream pos (callStartClear r) = wireEvents p stream pos r := by
  cases stream with
  | nil => rfl
  | cons b rest =>
    simp only [wireEvents, callStartClear_of_not_complete (callStartClear_not_complete r)]

/-- Bytes that lead on yield no event (R117, R123). -/
theorem wireEvents_append {p : Config.Params} {before : List Byte} {r r₁ : RxUnit}
    (rest : List Byte) (pos : Nat) (hc : r.complete = false)
    (h : continues p before r = some r₁) :
    wireEvents p (before ++ rest) pos r = wireEvents p rest (pos + before.length) r₁ := by
  induction before generalizing pos r with
  | nil => cases h; rfl
  | cons b bs ih =>
    simp only [continues] at h
    split at h
    · rename_i r₂ hb
      have hstep : wireEvents p (b :: (bs ++ rest)) pos r = wireEvents p (bs ++ rest) (pos + 1) r₂ := by
        simp only [wireEvents, callStartClear_of_not_complete hc, hb]
      rw [List.cons_append, hstep, ih (pos + 1) (not_complete_of_more hc hb) h, List.length_cons,
        Nat.add_assoc, Nat.add_comm 1]
    · cases h

/-- The same from a unit that may retain a frame. -/
theorem wireEvents_of_continues {p : Config.Params} {before : List Byte} {r r₁ : RxUnit}
    (rest : List Byte) (pos : Nat) (h : continues p before (callStartClear r) = some r₁) :
    wireEvents p (before ++ rest) pos r = wireEvents p rest (pos + before.length) r₁ := by
  rw [← wireEvents_callStartClear, wireEvents_append rest pos (callStartClear_not_complete r) h]

/-- The event that a byte of the stream yields, by what RX_BYTE returned and the unit it left (R123). -/
def eventOf (r : RxUnit) : ByteResult → Option RxEvent
  | .ready => some (.ready (viewOf r))
  | .error => some .error
  | _ => none

section
variable {p : Config.Params} {before : List Byte} {b : Byte} {r r₁ r' : RxUnit} {res : ByteResult}
  (rest : List Byte) (pos : Nat)

/-- The first Ready or Error of a stream, with its position, and the events after it (R123). -/
theorem wireEvents_of_event {e : RxEvent} (hgo : continues p before (callStartClear r) = some r₁)
    (hb : rxByte p b r₁ = (r', res)) (he : eventOf r' res = some e) :
    wireEvents p (before ++ b :: rest) pos r =
      (pos + (before.length + 1), e) :: wireEvents p rest (pos + (before.length + 1)) r' := by
  have hc : r₁.complete = false := not_complete_of_continues (callStartClear_not_complete r) hgo
  rw [wireEvents_of_continues _ pos hgo]
  cases res <;> cases he <;>
    simp only [wireEvents, callStartClear_of_not_complete hc, hb, Nat.add_assoc]

/-- A model fault ends the stream (R123). -/
theorem wireEvents_of_overflow (hgo : continues p before (callStartClear r) = some r₁)
    (hb : rxByte p b r₁ = (r', .overflow)) : wireEvents p (before ++ b :: rest) pos r = [] := by
  have hc : r₁.complete = false := not_complete_of_continues (callStartClear_not_complete r) hgo
  rw [wireEvents_of_continues _ pos hgo]
  simp only [wireEvents, callStartClear_of_not_complete hc, hb]

end

/-! What the host of R123 does after one call, by how the call ended. -/

section
variable {n : Nat} {stream : List Byte} {c : Nat} {s : State} {r : RxUnit} {res : ByteResult}
  (sizes : List Nat) (pos : Nat) (hs : s.fault = none)
include hs

theorem deliverChunks_of_more
    (h : exec (.rxParse (stream.take n)) s = .next (endOfParse s c r .more)) :
    deliverChunks (n :: sizes) stream pos s =
      deliverChunks sizes (stream.drop n) (pos + (stream.take n).length)
        (endOfParse s c r .more) := by
  simp [deliverChunks, h, endOfParse, hs]

theorem deliverChunks_of_event {e : RxEvent} {later : List (Nat × RxEvent)} {unread : List Byte}
    (h : exec (.rxParse (stream.take n)) s = .next (endOfParse s c r res))
    (he : eventOf r res = some e)
    (hlater : deliverChunks sizes (stream.drop c) (pos + c) (endOfParse s c r res) =
      (later, unread)) :
    deliverChunks (n :: sizes) stream pos s = ((pos + c, e) :: later, unread) := by
  cases res <;> cases he <;>
    (simp only [endOfParse, hs] at hlater; simp [deliverChunks, h, endOfParse, hs, hlater])

end

theorem deliverChunks_of_overflow {n c : Nat} {stream : List Byte} {s : State} {r : RxUnit}
    (sizes : List Nat) (pos : Nat)
    (h : exec (.rxParse (stream.take n)) s = .next (endOfParse s c r .overflow)) :
    deliverChunks (n :: sizes) stream pos s = ([], []) := by
  simp [deliverChunks, h, endOfParse]

/-- A byte that does not lead on yields an event, and records no fault, or is the RxOverflow byte. -/
theorem eventOf_cases {s : State} {c : Nat} {r : RxUnit} {res : ByteResult} (hne : res ≠ .more) :
    (∃ e, eventOf r res = some e ∧ (endOfParse s c r res).fault = s.fault ∧
      (endOfParse s c r res).params = s.params ∧ (endOfParse s c r res).rx = r) ∨
    res = .overflow := by
  cases res with
  | more => exact absurd rfl hne
  | ready => exact .inl ⟨_, rfl, rfl, rfl, rfl⟩
  | error => exact .inl ⟨_, rfl, rfl, rfl, rfl⟩
  | overflow => exact .inr rfl

/-- The events of a delivery that uses up the stream are those of the stream read byte by byte, from any
state and position on. -/
theorem deliverChunks_eq_wireEvents {sizes : List Nat} {stream : List Byte} {pos : Nat} {s : State}
    {events : List (Nat × RxEvent)} (hs : s.fault = none)
    (h : deliverChunks sizes stream pos s = (events, [])) :
    events = wireEvents s.params stream pos s.rx := by
  induction sizes generalizing stream pos s events with
  | nil =>
    obtain ⟨rfl, rfl⟩ : [] = events ∧ stream = [] := by simpa [deliverChunks] using h
    rfl
  | cons n sizes ih =>
    obtain ⟨t, ht, -⟩ := exec_rxParse_next (stream.take n) hs
    rcases exec_rxParse_cases ht with
      ⟨r, hgo, rfl⟩ | ⟨before, b, after, r, r', res, hchunk, hgo, hb, hne, rfl⟩
    · have hread := wireEvents_of_continues (stream.drop n) pos hgo
      rw [List.take_append_drop] at hread
      rw [deliverChunks_of_more sizes pos hs ht] at h
      rw [hread]
      exact ih (s := endOfParse s 0 r .more) hs h
    · have hstream : stream = before ++ b :: (after ++ stream.drop n) := by
        rw [← List.cons_append, ← List.append_assoc, ← hchunk, List.take_append_drop]
      have hdrop : stream.drop (before.length + 1) = after ++ stream.drop n := by
        rw [hstream, ← List.drop_drop, List.drop_left, List.drop_one, List.tail_cons, ← hstream]
      rcases eventOf_cases (s := s) (c := before.length + 1) (r := r') hne with
        ⟨e, he, hfault, hparams, hrx⟩ | rfl
      · rcases hlater : deliverChunks sizes (stream.drop (before.length + 1))
          (pos + (before.length + 1)) (endOfParse s (before.length + 1) r' res) with ⟨later, unread⟩
        rw [deliverChunks_of_event sizes pos hs ht he hlater] at h
        cases h
        have hread := ih (hfault.trans hs) hlater
        rw [hparams, hrx, hdrop] at hread
        rw [hread, ← wireEvents_of_event _ pos hgo hb he, ← hstream]
      · rw [deliverChunks_of_overflow sizes pos ht] at h
        rw [hstream, wireEvents_of_overflow _ pos hgo hb]
        exact (Prod.mk.inj h).1.symm

/-- Settles O21: each call of the host is a run of bytes that lead on, then at most one event, and so is
the reading byte by byte. -/
theorem chunkSplitInvariance : Obligations.ChunkSplitInvariance :=
  fun _ _ _ _ hs h => deliverChunks_eq_wireEvents hs h

/-! ## A whole frame on the wire -/

/-- Wire bytes that carry a value lead on when the value does. -/
theorem Carries.continues_eq {p : Config.Params} {wire : List Byte} {v : Byte} {r r' : RxUnit}
    (h : Carries p wire v) (hesc : r.esc = false) (hv : rxValue p v r = (r', .more)) :
    continues p wire r = some r' := by
  have hloop := h r hesc
  rw [hv] at hloop
  rcases rxLoop_cases p wire 0 r with
    ⟨r₁, hgo, e⟩ | ⟨before, b, after, r₁, r₂, -, -, ⟨-, e⟩ | ⟨-, e⟩ | ⟨-, e⟩⟩ <;>
    rw [e] at hloop <;> cases hloop
  exact hgo

theorem continues_append {p : Config.Params} {before : List Byte} {r r₁ : RxUnit} (rest : List Byte)
    (h : continues p before r = some r₁) :
    continues p (before ++ rest) r = continues p rest r₁ := by
  induction before generalizing r with
  | nil => cases h; rfl
  | cons b bs ih =>
    simp only [continues] at h
    split at h
    · rename_i r₂ hb
      rw [List.cons_append, ← ih h]
      simp only [continues, hb]
    · cases h

/-- Core bytes in their wire form lead on while the frame they belong to fits and is not complete after
the last of them (R114 to R117). -/
theorem continues_flatMap_escape {p : Config.Params} {buf l : List Byte} (hpos : 1 ≤ buf.length)
    (hroom : ∀ t, RxUnit.total ⟨buf ++ l, false⟩ = some t →
      fits p.bufCap t = true ∧ buf.length + l.length < t) :
    continues p (l.flatMap escape) ⟨buf, false⟩ = some ⟨buf ++ l, false⟩ := by
  induction l generalizing buf with
  | nil => simp [continues]
  | cons b l ih =>
    rw [List.append_cons] at hroom ⊢
    have hfinal : ∀ t, RxUnit.total ⟨buf ++ [b], false⟩ = some t →
        fits p.bufCap t = true ∧ buf.length + 1 < t := fun t ht => by
      obtain ⟨hfit, hlt⟩ := hroom t (total_append l false ht)
      simp only [List.length_cons] at hlt
      exact ⟨hfit, by omega⟩
    have hnotDone : RxUnit.complete ⟨buf ++ [b], false⟩ = false := Bool.eq_false_iff.2 fun hc => by
      have := (hfinal _ ((complete_iff _).1 hc)).2
      simp at this
    have hfits : RxUnit.tooLong p ⟨buf ++ [b], false⟩ = false :=
      (not_tooLong_iff p _).2 fun t ht => (hfinal t ht).1
    have hvalue : rxValue p b ⟨buf, false⟩ = (⟨buf ++ [b], false⟩, .more) := by
      rw [rxValue_append p b (r := ⟨buf, false⟩) hpos]
      simp [appendResult, hnotDone, hfits]
    rw [List.flatMap_cons, continues_append _ ((carries_escape p b).continues_eq rfl hvalue)]
    refine ih (by simp) fun t ht => ?_
    obtain ⟨hfit, hlt⟩ := hroom t ht
    simp only [List.length_cons, List.length_append, List.length_nil] at hlt ⊢
    exact ⟨hfit, by omega⟩

/-- The buffer that a frame leaves: the header, the core and the trailer (R61). -/
def frameBuf (ty sq : Byte) (body : List Byte) : List Byte :=
  Config.header :: coreOf ty sq body ++ [Config.trailer]

theorem coreOf_length (ty sq : Byte) (body : List Byte) :
    (coreOf ty sq body).length = 7 + body.length := by
  simp [coreOf, lengthBytes]
  omega

theorem frameBuf_length (ty sq : Byte) (body : List Byte) :
    (frameBuf ty sq body).length = 9 + body.length := by
  simp [frameBuf, coreOf_length]
  omega

section
variable (ty sq : Byte) {body : List Byte} (hlen : body.length < 4294967296)

include hlen in
/-- The header and the core declare the length of the body (R24, R170). -/
theorem total_header_core (e : Bool) :
    RxUnit.total ⟨Config.header :: coreOf ty sq body, e⟩ = some (9 + body.length) := by
  rw [total_eq_some_iff]
  refine ⟨BitVec.ofNat 32 body.length, congrArg some (lengthOf_lengthBytes _), ?_⟩
  rw [BitVec.toNat_ofNat, Nat.mod_eq_of_lt hlen]

include hlen in
/-- A whole frame is complete (R25). -/
theorem complete_frameBuf (e : Bool) : RxUnit.complete ⟨frameBuf ty sq body, e⟩ = true := by
  rw [complete_iff, len_mk, frameBuf_length]
  exact total_append [Config.trailer] e (total_header_core ty sq hlen e)

variable {p : Config.Params} (hfit : fits p.bufCap (9 + body.length) = true)

include hlen hfit in
/-- From idle the wire bytes of a frame before its trailer lead on (R113, R114). -/
theorem continues_frame :
    continues p ([Config.header] ++ (coreOf ty sq body).flatMap escape) RxUnit.idle =
      some ⟨Config.header :: coreOf ty sq body, false⟩ := by
  have hheader : continues p [Config.header] RxUnit.idle = some ⟨[Config.header], false⟩ :=
    (carries_literal p (by decide)).continues_eq rfl (rxValue_header p rfl)
  rw [continues_append _ hheader]
  refine continues_flatMap_escape (by simp) fun t ht => ?_
  obtain rfl : 9 + body.length = t :=
    Option.some_inj.1 ((total_header_core ty sq hlen false).symm.trans ht)
  exact ⟨hfit, by simp [coreOf_length]; omega⟩

include hlen in
/-- The trailer completes the frame (R116). -/
theorem rxByte_trailer :
    rxByte p Config.trailer ⟨Config.header :: coreOf ty sq body, false⟩ =
      (⟨frameBuf ty sq body, false⟩, .ready) := by
  have hready : appendResult p ⟨frameBuf ty sq body, false⟩ = .ready :=
    appendResult_eq_ready_iff.2 (complete_frameBuf ty sq hlen false)
  rw [rxByte_of_not_announces (by simp [Config.trailer]), ← hready]
  exact rxValue_append p _ (by simp)

include hlen in
/-- RX_PARSE of a whole frame and more, from idle or with a frame retained: Ready with the length of the
wire form (R118, R122). -/
theorem exec_rxParse_frame (rest : List Byte) {s : State} (hs : s.fault = none)
    (hidle : callStartClear s.rx = RxUnit.idle)
    (hfit : fits s.params.bufCap (9 + body.length) = true) :
    exec (.rxParse (wireOf (coreOf ty sq body) ++ rest)) s = .next
      (endOfParse s (wireOf (coreOf ty sq body)).length ⟨frameBuf ty sq body, false⟩ .ready) := by
  have hgo := continues_frame ty sq hlen hfit
  rw [← hidle] at hgo
  have h := exec_rxParse_of_stop rest hs hgo (rxByte_trailer ty sq hlen) (by simp)
  rw [List.append_cons] at h
  simpa [wireOf] using h

end

/-- The payload of a view is what stands between the seven bytes up to the length field and the two of
the checksum and the trailer (R150). -/
theorem viewOf_payload {front body back : List Byte} (e : Bool) (hfront : front.length = 7)
    (hback : back.length = 2) : (viewOf ⟨front ++ body ++ back, e⟩).payload = body := by
  have hcut : (front ++ body ++ back).length - 2 = (front ++ body).length := by
    rw [List.length_append, hback, Nat.add_sub_cancel]
  simp only [viewOf, len_mk]
  rw [hcut, List.take_left, ← hfront, List.drop_left]

theorem viewOf_frameBuf_payload (ty sq : Byte) (body : List Byte) (e : Bool) :
    (viewOf ⟨frameBuf ty sq body, e⟩).payload = body := by
  obtain ⟨chk, hcore⟩ : ∃ chk, coreOf ty sq body =
      [ty, sq] ++ lengthBytes (BitVec.ofNat 32 body.length) ++ body ++ [chk] := ⟨_, rfl⟩
  have hcells : frameBuf ty sq body =
      Config.header :: ([ty, sq] ++ lengthBytes (BitVec.ofNat 32 body.length)) ++ body ++
        [chk, Config.trailer] := by
    simp [frameBuf, hcore]
  rw [hcells]
  exact viewOf_payload e rfl rfl

/-- Settles O37: the first frame leaves the unit with a retained frame, which the second call drops. -/
theorem twoFramesInOneChunk : Obligations.TwoFramesInOneChunk := by
  intro s ty sq ty' sq' body body' hs hrx hlen hlen' hfit hfit' w w'
  have hidle : callStartClear s.rx = RxUnit.idle := by rw [hrx]; rfl
  have hretained := complete_frameBuf ty sq hlen false
  have hsecond := exec_rxParse_frame ty' sq' hlen' []
    (s := endOfParse s w.length ⟨frameBuf ty sq body, false⟩ .ready) hs
    (callStartClear_of_complete hretained) hfit'
  rw [List.append_nil] at hsecond
  rw [List.drop_left]
  exact ⟨_, _, _, _, exec_rxParse_frame ty sq hlen w' hs hidle hfit, rfl, rfl, rfl,
    viewOf_frameBuf_payload ty sq body false, hsecond, rfl, rfl, rfl,
    viewOf_frameBuf_payload ty' sq' body' false⟩

end Sys2Proof.Proofs
end

section
/-! Proofs for spec/42_rx_message.md: the view of a completed frame (R150, R151), VIEW_READ and its
window (R156, R157), and a changed byte of a retained frame (R158). -/

namespace Sys2Proof.Proofs
open Sys2Proof.Machine

/-! ## The classification of the type byte -/

/-- Settles O24: the four rows of R151; a byte that is none of the three codes meets no test of
`classify`. -/
theorem typeClassification : Obligations.TypeClassification := by
  refine ⟨by decide, by decide, by decide, fun t hack hcmd1 hcmd2 => ?_, fun r => ⟨rfl, rfl⟩⟩
  rw [classify_eq_unknown_iff]
  simp [Config.knownTypes, Config.typeAck, Config.typeCmd1, Config.typeCmd2, hack, hcmd1, hcmd2]

/-! ## The cells of a frame -/

theorem cell_of_getElem? {r : RxUnit} {i : Nat} {b : Byte} (h : r.buf[i]? = some b) :
    r.cell i = b := by
  simp [RxUnit.cell, h]

/-- The bytes that the checksum of a frame covers: all between the header and the checksum byte
(R152). -/
def covered (r : RxUnit) : List Byte := (r.buf.take (r.len - 2)).drop 1

theorem viewOf_chk (r : RxUnit) :
    (viewOf r).chk = checkOf (checksum (covered r)) (r.cell (r.len - 2)) := rfl

/-- The covered bytes leave out the header, the checksum byte and the trailer (R61, R152). -/
theorem covered_append (header : Byte) (fields : List Byte) (got trailer : Byte) (e : Bool) :
    covered ⟨header :: fields ++ [got, trailer], e⟩ = fields := by
  simp [covered]

theorem cell_append_got (front : List Byte) (got trailer : Byte) (e : Bool) :
    RxUnit.cell ⟨front ++ [got, trailer], e⟩ (RxUnit.len ⟨front ++ [got, trailer], e⟩ - 2) = got :=
  cell_of_getElem? (by simp)

/-- Settles O23: the total is `9 + L`, the number of cells, and the covered bytes end before the
checksum byte. -/
theorem viewOfACompletedFrame : Obligations.ViewOfACompletedFrame := by
  intro header ty sq b3 b4 b5 b6 got trailer payload e hlen r expected
  refine ⟨?_, ?_⟩
  · rw [complete_iff, total_eq_some_iff]
    refine ⟨lengthOf b3 b4 b5 b6, rfl, ?_⟩
    rw [← hlen]
    simp [r]
    omega
  · have hpayload : (viewOf r).payload = payload :=
      viewOf_payload (front := [header, ty, sq, b3, b4, b5, b6]) e rfl rfl
    have hcovered : covered r = [ty, sq, b3, b4, b5, b6] ++ payload :=
      covered_append header ([ty, sq, b3, b4, b5, b6] ++ payload) got trailer e
    have hchk : (viewOf r).chk = if expected = got then .ok got else .err expected got := by
      rw [viewOf_chk, hcovered, cell_append_got]
      rfl
    calc viewOf r = ⟨classify ty, ty, sq, (viewOf r).payload, (viewOf r).chk⟩ := rfl
      _ = _ := by rw [hpayload, hchk]

/-! ## VIEW_READ and its window -/

theorem exec_viewRead_of_complete {s : State} (hs : s.fault = none) (hc : s.rx.complete = true) :
    exec .viewRead s = .next (deliver (.view (viewOf s.rx)) s) := by
  rw [exec_viewRead, operate_of_fault_none _ hs]
  simp [viewReadOp, hc]

theorem exec_viewRead_of_not_complete {s : State} (hs : s.fault = none)
    (hc : s.rx.complete = false) : exec .viewRead s = .next (raiseFault .staleView s) := by
  rw [exec_viewRead, operate_of_fault_none _ hs]
  simp [viewReadOp, hc]

/-- Settles O25: the operation hands its state on, so its end adds the view or the fault alone. -/
theorem viewReadOnlyInItsWindow : Obligations.ViewReadOnlyInItsWindow :=
  ⟨fun _ => exec_viewRead_of_complete, fun _ => exec_viewRead_of_not_complete,
    fun _ _ => operate_of_fault viewReadOp⟩

/-- An RX_PARSE that returned an outcome recorded no fault (R205). -/
theorem fault_none_of_outcome {chunk : List Byte} {s t : State} {o : OpOutcome}
    (h : exec (.rxParse chunk) s = .next t) (ho : t.outcomes = s.outcomes ++ [o]) :
    t.fault = none := by
  obtain ⟨-, -, -, -, -, ⟨-, -, hf, -⟩ | ⟨-, -, -, hkept⟩⟩ := rxParseOp_end h
  · exact hf
  · simp [hkept] at ho

/-- An RX_PARSE that records no fault and returns no Ready leaves no frame retained (R111, R116). -/
theorem not_complete_of_not_ready {chunk : List Byte} {s t : State}
    (h : exec (.rxParse chunk) s = .next t) (hf : t.fault = none)
    (hnot : ∀ v c, t.outcomes ≠ s.outcomes ++ [.ready v c]) : t.rx.complete = false := by
  rcases exec_rxParse_cases h with ⟨r, hgo, rfl⟩ | ⟨before, b, after, r, r', res, -, -, hb, hne, rfl⟩
  · exact not_complete_of_continues (callStartClear_not_complete s.rx) hgo
  · cases res with
    | more => exact absurd rfl hne
    | error =>
      obtain rfl := idle_of_error hb
      rfl
    | ready => exact absurd rfl (hnot _ _)
    | overflow => cases hf

/-- Settles O26: VIEW_READ keeps the unit, so the retained frame is there for the next one; each of the
later operations leaves a unit that is not complete. -/
theorem retainedFrameWindow : Obligations.RetainedFrameWindow := by
  intro chunk s t v c h ho
  obtain ⟨-, -, hc, rfl, -⟩ := unreadBytesHaveNoEffect chunk s t v c h ho
  have hf := fault_none_of_outcome h ho
  refine ⟨?_, fun later u hu hfu hnot => ?_, ?_, ?_⟩
  · exact ⟨_, exec_viewRead_of_complete hf hc, rfl, rfl,
      _, exec_viewRead_of_complete hf hc, rfl, rfl⟩
  · exact ⟨_, exec_viewRead_of_not_complete hfu (not_complete_of_not_ready hu hfu hnot), rfl⟩
  · exact ⟨_, (emptyChunkDropsTheRetainedFrame t hf).1 hc, hf, rfl⟩
  · exact ⟨_, _, exec_rxReset_of_fault_none hf, exec_viewRead_of_not_complete hf rfl, rfl⟩

/-! ## The frame total and the length bytes -/

/-- The declared length is read off cells 3 to 6 (R24). -/
theorem declared_eq_some_iff (r : RxUnit) (l : Word32) :
    r.declared = some l ↔ ∃ b3 b4 b5 b6, r.buf[3]? = some b3 ∧ r.buf[4]? = some b4 ∧
      r.buf[5]? = some b5 ∧ r.buf[6]? = some b6 ∧ lengthOf b3 b4 b5 b6 = l := by
  obtain ⟨buf, e⟩ := r
  rcases buf with _ | ⟨a0, _ | ⟨a1, _ | ⟨a2, _ | ⟨a3, _ | ⟨a4, _ | ⟨a5, _ | ⟨a6, rest⟩⟩⟩⟩⟩⟩⟩ <;>
    simp [RxUnit.declared]

/-- The four length bytes are determined by the length (R67). -/
theorem lengthOf_inj {b3 b4 b5 b6 c3 c4 c5 c6 : Byte}
    (h : lengthOf b3 b4 b5 b6 = lengthOf c3 c4 c5 c6) : b3 = c3 ∧ b4 = c4 ∧ b5 = c5 ∧ b6 = c6 := by
  have hnat := congrArg BitVec.toNat h
  rw [lengthOf_toNat, lengthOf_toNat] at hnat
  simp only [← BitVec.toNat_inj]
  omega

/-- Frames with the same total have the same length bytes (R25). -/
theorem lengthBytes_eq_of_total_eq {r r' : RxUnit} {t : Nat} (h : r.total = some t)
    (h' : r'.total = some t) {i : Nat} (hi : 3 ≤ i ∧ i ≤ 6) : r.buf[i]? = r'.buf[i]? := by
  obtain ⟨l, hl, rfl⟩ := total_eq_some_iff.1 h
  obtain ⟨l', hl', hsum⟩ := total_eq_some_iff.1 h'
  obtain rfl : l = l' := BitVec.eq_of_toNat_eq (by omega)
  obtain ⟨b3, b4, b5, b6, h3, h4, h5, h6, hb⟩ := (declared_eq_some_iff r l).1 hl
  obtain ⟨c3, c4, c5, c6, h3', h4', h5', h6', hc⟩ := (declared_eq_some_iff r' l).1 hl'
  obtain ⟨rfl, rfl, rfl, rfl⟩ := lengthOf_inj (hb.trans hc.symm)
  obtain rfl | rfl | rfl | rfl : i = 3 ∨ i = 4 ∨ i = 5 ∨ i = 6 := by omega
  · rw [h3, h3']
  · rw [h4, h4']
  · rw [h5, h5']
  · rw [h6, h6']

theorem len_set (r : RxUnit) (i : Nat) (v : Byte) :
    RxUnit.len ⟨r.buf.set i v, r.esc⟩ = r.len :=
  List.length_set

/-- A byte outside the length field does not change the total (R25). -/
theorem total_set {r : RxUnit} {i t : Nat} (v : Byte) (hi : ¬(3 ≤ i ∧ i ≤ 6))
    (h : r.total = some t) : RxUnit.total ⟨r.buf.set i v, r.esc⟩ = some t := by
  obtain ⟨l, hl, rfl⟩ := total_eq_some_iff.1 h
  refine total_eq_some_iff.2 ⟨l, ?_, rfl⟩
  rw [declared_eq_some_iff] at hl ⊢
  have hkept : ∀ j, 3 ≤ j ∧ j ≤ 6 → (r.buf.set i v)[j]? = r.buf[j]? := fun j hj =>
    List.getElem?_set_ne (by omega)
  simpa [hkept] using hl

/-- A changed length byte changes the total (R158). -/
theorem total_set_ne {r : RxUnit} {i : Nat} {v : Byte} (hi : 3 ≤ i ∧ i ≤ 6) (hlt : i < r.len)
    (hne : r.buf[i]? ≠ some v) {t : Nat} (h : r.total = some t) :
    RxUnit.total ⟨r.buf.set i v, r.esc⟩ ≠ some t := fun hset =>
  hne ((lengthBytes_eq_of_total_eq h hset hi).trans (List.getElem?_set_self hlt))

/-! ## A changed byte and the checksum -/

theorem checkOf_eq_ok_iff {expected got c : Byte} :
    checkOf expected got = .ok c ↔ expected = c ∧ got = c := by
  unfold checkOf
  split_ifs with h
  · simp [h]
  · exact iff_of_false (by simp) fun ⟨he, hg⟩ => h (he.trans hg.symm)

theorem checkOf_of_ne {expected got : Byte} (h : expected ≠ got) :
    checkOf expected got = .err expected got :=
  if_neg h

/-- A changed byte of a list changes its checksum (R102(c)). -/
theorem checksum_set_ne {l : List Byte} {i : Nat} {v : Byte} (hlt : i < l.length)
    (hne : l[i]? ≠ some v) : checksum (l.set i v) ≠ checksum l := by
  have hv : l[i] ≠ v := fun heq => hne (heq ▸ List.getElem?_eq_getElem hlt)
  have hsub := checksum_substitution_ne (l.take i) (l.drop (i + 1)) hv
  rw [List.set_eq_take_append_cons_drop, if_pos hlt]
  rwa [← List.drop_eq_getElem_cons hlt, List.take_append_drop] at hsub

theorem covered_set (r : RxUnit) {i : Nat} (hi : 1 ≤ i) (v : Byte) :
    covered ⟨r.buf.set i v, r.esc⟩ = (covered r).set (i - 1) v := by
  simp [covered, RxUnit.len, List.take_set, List.drop_set, Nat.not_lt.2 hi]

theorem covered_length (r : RxUnit) : (covered r).length = r.len - 2 - 1 := by
  simp [covered, RxUnit.len]

theorem covered_getElem? (r : RxUnit) {i : Nat} (hi : 1 ≤ i) (hlt : i < r.len - 2) :
    (covered r)[i - 1]? = r.buf[i]? := by
  rw [covered, List.getElem?_drop, Nat.add_sub_cancel' hi, List.getElem?_take_of_lt hlt]

theorem cell_set_ne (r : RxUnit) {i j : Nat} (v : Byte) (h : i ≠ j) :
    RxUnit.cell ⟨r.buf.set i v, r.esc⟩ j = r.cell j := by
  simp [RxUnit.cell, List.getElem?_set_ne h]

/-- A changed covered byte changes the recomputed checksum and not the received one (R152, R158). -/
theorem chk_set_of_covered {r : RxUnit} {c : Byte} {i : Nat} {v : Byte}
    (hok : (viewOf r).chk = .ok c) (hi : 1 ≤ i) (hlt : i < r.len - 2)
    (hne : r.buf[i]? ≠ some v) :
    ∃ c', c' ≠ c ∧ (viewOf ⟨r.buf.set i v, r.esc⟩).chk = .err c' c := by
  rw [viewOf_chk, checkOf_eq_ok_iff] at hok
  obtain ⟨rfl, hgot⟩ := hok
  have hsum : checksum ((covered r).set (i - 1) v) ≠ checksum (covered r) :=
    checksum_set_ne (by rw [covered_length]; omega) (by rwa [covered_getElem? r hi hlt])
  refine ⟨_, hsum, ?_⟩
  rw [viewOf_chk, covered_set r hi, len_set, cell_set_ne r v (by omega), hgot, checkOf_of_ne hsum]

/-- Settles O27: type, seq and payload bytes are covered by the checksum and lie outside the length
field. -/
theorem singleByteCorruptionIsReported : Obligations.SingleByteCorruptionIsReported := by
  intro r c i v hc hok hlt hne
  have htotal := (complete_iff r).1 hc
  refine ⟨fun hi => ⟨?_, ?_⟩, fun hi => ?_⟩
  · rw [complete_iff, total_set v (by omega) htotal, len_set]
  · have hnine := nine_le_len_of_complete hc
    exact chk_set_of_covered hok (by omega) (by omega) hne
  · rw [htotal]
    exact total_set_ne hi hlt hne htotal

end Sys2Proof.Proofs
end

section
/-! Proofs for spec/43_tx_encoder.md: what the two TX operations emit (R170 to R176), its length (R177),
its canonical form (R179), and its way back through the RX unit (R178). -/

namespace Sys2Proof.Proofs
open Sys2Proof.Machine

/-! ## The sequence byte of an Ack -/

/-- Settles O32: the subtraction wraps at 256, and `1 - (1 - seq)` is `seq` in 8-bit arithmetic. -/
theorem ackSequenceByte : Obligations.AckSequenceByte := by
  refine ⟨fun seq => ⟨?_, sub_sub_cancel 1 seq⟩, rfl, rfl, rfl, rfl, rfl⟩
  have hsub : (ackSeq seq).toNat = (256 - seq.toNat + 1) % 256 := BitVec.toNat_sub 1 seq
  have := seq.isLt
  rw [hsub]
  omega

/-! ## The emission of a frame -/

/-- The state after a TX operation that emitted and returned the wire bytes `w` (R33, R42). -/
def emit (w : List Byte) (s : State) : State :=
  { s with txOut := s.txOut ++ w, outcomes := s.outcomes ++ [.frame w] }

@[simp] theorem emit_txOut (w : List Byte) (s : State) : (emit w s).txOut = s.txOut ++ w := rfl

section
variable {ty sq : Byte} {body : List Byte} {s : State} (hs : s.fault = none)
include hs

theorem operate_frameOp_of_le (hle : body.length ≤ s.params.txMaxBody.val) :
    operate (frameOp ty sq body) s = .next (emit (wireOf (coreOf ty sq body)) s) := by
  rw [operate_of_fault_none _ hs]
  rcases frameOp_cases ty sq body s with ⟨hlt, -⟩ | ⟨-, e⟩
  · omega
  · rw [e]; rfl

theorem operate_frameOp_of_lt (hlt : s.params.txMaxBody.val < body.length) :
    operate (frameOp ty sq body) s = .next (raiseFault .txBodyTooLong s) := by
  rw [operate_of_fault_none _ hs]
  rcases frameOp_cases ty sq body s with ⟨-, e⟩ | ⟨hle, -⟩
  · rw [e]; rfl
  · omega

end

/-- What a TX operation can do: record TxBodyTooLong and emit nothing, or emit its frame (R170, R173). -/
theorem operate_frameOp_next_cases {ty sq : Byte} {body : List Byte} {s t : State}
    (h : operate (frameOp ty sq body) s = .next t) :
    (s.params.txMaxBody.val < body.length ∧ t = raiseFault .txBodyTooLong s) ∨
    (body.length ≤ s.params.txMaxBody.val ∧ t = emit (wireOf (coreOf ty sq body)) s) := by
  obtain ⟨hs, -⟩ := (operate_next_iff _ _ _).1 h
  rcases Nat.lt_or_ge s.params.txMaxBody.val body.length with hlt | hle
  · exact .inl ⟨hlt, by simpa [h] using operate_frameOp_of_lt (ty := ty) (sq := sq) hs hlt⟩
  · exact .inr ⟨hle, by simpa [h] using operate_frameOp_of_le (ty := ty) (sq := sq) hs hle⟩

/-- A TX operation that recorded no fault emitted its frame. -/
theorem emit_of_fault_none {ty sq : Byte} {body : List Byte} {s t : State}
    (h : operate (frameOp ty sq body) s = .next t) (ht : t.fault = none) :
    body.length ≤ s.params.txMaxBody.val ∧ t = emit (wireOf (coreOf ty sq body)) s := by
  rcases operate_frameOp_next_cases h with ⟨-, rfl⟩ | hemit
  · simp at ht
  · exact hemit

/-- Settles O30: TX_ENCODE_CMD is FRAME of the type byte that `b` chooses. -/
theorem txEncodeCmdEmitsTheFrame : Obligations.TxEncodeCmdEmitsTheFrame := fun _ _ _ _ =>
  ⟨operate_frameOp_of_le, operate_frameOp_of_lt, fun _ => operate_of_fault _⟩

/-- Settles O31: TX_ENCODE_ACK is FRAME of an empty body, which every limit admits. -/
theorem txEncodeAckEmitsTheFrame : Obligations.TxEncodeAckEmitsTheFrame := fun _ _ =>
  ⟨fun hs => operate_frameOp_of_le (body := []) hs (Nat.zero_le _), fun _ => operate_of_fault _⟩

/-! ## The length of a frame on the wire -/

/-- Escaping adds one byte for each special byte (R63). -/
theorem flatMap_escape_length (l : List Byte) :
    (l.flatMap escape).length = l.length + l.countP special := by
  induction l with
  | nil => rfl
  | cons b l ih =>
    rw [List.flatMap_cons, List.length_append, ih, List.length_cons]
    rcases escape_cases b with ⟨hb, e⟩ | ⟨hb, e⟩
    · rw [e, List.countP_cons_of_neg (by simp [hb]), List.length_singleton]
      omega
    · rw [e, List.countP_cons_of_pos hb, List.length_cons, List.length_singleton]
      omega

theorem wireOf_coreOf_length (ty sq : Byte) (body : List Byte) :
    (wireOf (coreOf ty sq body)).length =
      9 + body.length + (coreOf ty sq body).countP special := by
  simp only [wireOf, List.length_append, List.length_singleton, flatMap_escape_length, coreOf_length]
  omega

/-- Settles O34: what an operation that records no fault emits is the frame; an Ack records none, as its
body is empty. -/
theorem wireLength : Obligations.WireLength := by
  refine fun ty sq body => ⟨wireOf_coreOf_length ty sq body, fun b s t h ht => ?_, fun s t h => ?_⟩
  · obtain ⟨-, rfl⟩ := emit_of_fault_none h ht
    rw [emit_txOut, List.drop_left, wireOf_coreOf_length]
  · rcases operate_frameOp_next_cases h with ⟨hlt, -⟩ | ⟨-, rfl⟩
    · exact absurd hlt (Nat.not_lt_zero _)
    · rw [emit_txOut, List.drop_left, wireOf_coreOf_length]
      rfl

/-! ## The canonical form -/

/-- Wire bytes with no literal HEADER or TRAILER, in which the second byte of a canonical pair follows
each ESC (R63, R179). -/
def Canonical (l : List Byte) : Prop :=
  ∀ k, l[k]? ≠ some Config.header ∧ l[k]? ≠ some Config.trailer ∧
    (l[k]? = some Config.esc → ∃ x ∈ Config.canonicalSeconds, l[k + 1]? = some x)

theorem canonical_nil : Canonical [] := fun k => by simp

/-- No pair is cut at the end of canonical bytes, so they can be put together. -/
theorem Canonical.append {l m : List Byte} (hl : Canonical l) (hm : Canonical m) :
    Canonical (l ++ m) := by
  intro k
  rcases Nat.lt_or_ge k l.length with hk | hk
  · obtain ⟨hheader, htrailer, hesc⟩ := hl k
    rw [List.getElem?_append_left hk]
    refine ⟨hheader, htrailer, fun h => ?_⟩
    obtain ⟨x, hx, hnext⟩ := hesc h
    have hk' : k + 1 < l.length := (List.getElem?_eq_some_iff.1 hnext).1
    exact ⟨x, hx, (List.getElem?_append_left hk').trans hnext⟩
  · rw [List.getElem?_append_right hk, List.getElem?_append_right (Nat.le_succ_of_le hk),
      Nat.succ_sub hk]
    exact hm (k - l.length)

/-- The second byte of a pair that `escape` makes is canonical (R63). -/
theorem and_escMask_mem_canonicalSeconds {b : Byte} (h : special b = true) :
    b &&& Config.escMask ∈ Config.canonicalSeconds := by
  rcases (special_iff b).1 h with rfl | rfl | rfl <;> decide

theorem mem_canonicalSeconds_iff (x : Byte) :
    x ∈ Config.canonicalSeconds ↔ x = 0x2e#8 ∨ x = 0x2c#8 ∨ x = 0x2d#8 := by
  simp only [Config.canonicalSeconds, List.mem_cons, List.not_mem_nil, or_false]
  rfl

theorem not_special_of_mem_canonicalSeconds {x : Byte} (h : x ∈ Config.canonicalSeconds) :
    special x = false := by
  rcases (mem_canonicalSeconds_iff x).1 h with rfl | rfl | rfl <;> rfl

/-- A byte that is not special is canonical on its own. -/
theorem canonical_singleton {b : Byte} (h : special b = false) : Canonical [b] := by
  obtain ⟨⟨hheader, htrailer⟩, hesc⟩ :
      (b ≠ Config.header ∧ b ≠ Config.trailer) ∧ b ≠ Config.esc := by simpa [special] using h
  intro k
  cases k with
  | zero => simp [hheader, htrailer, hesc]
  | succ k => simp

theorem canonical_pair {x : Byte} (h : x ∈ Config.canonicalSeconds) : Canonical [Config.esc, x] := by
  intro k
  cases k with
  | zero => exact ⟨by simp [Config.esc, Config.header], by simp [Config.esc, Config.trailer],
      fun _ => ⟨x, h, rfl⟩⟩
  | succ k =>
    obtain ⟨hheader, htrailer, hesc⟩ :=
      canonical_singleton (not_special_of_mem_canonicalSeconds h) k
    exact ⟨hheader, htrailer, hesc⟩

theorem canonical_escape (b : Byte) : Canonical (escape b) := by
  rcases escape_cases b with ⟨hb, e⟩ | ⟨hb, e⟩
  · rw [e]
    exact canonical_singleton hb
  · rw [e]
    exact canonical_pair (and_escMask_mem_canonicalSeconds hb)

theorem canonical_flatMap_escape (l : List Byte) : Canonical (l.flatMap escape) := by
  induction l with
  | nil => exact canonical_nil
  | cons b l ih => exact (canonical_escape b).append ih

section
variable (core : List Byte)

theorem wireOf_length : (wireOf core).length = (core.flatMap escape).length + 2 := by
  simp [wireOf]

theorem wireOf_getElem?_zero : (wireOf core)[0]? = some Config.header := rfl

theorem wireOf_getElem?_last : (wireOf core)[(wireOf core).length - 1]? = some Config.trailer := by
  rw [← List.getLast?_eq_getElem?, wireOf, List.getLast?_concat]

/-- Between the header and the trailer stands the escaped core (R62). -/
theorem wireOf_getElem?_succ {j : Nat} (hj : j < (core.flatMap escape).length) :
    (wireOf core)[j + 1]? = (core.flatMap escape)[j]? :=
  List.getElem?_append_left (l₁ := Config.header :: core.flatMap escape) (Nat.succ_lt_succ hj)

end

theorem mem_knownTypes_iff (ty : Byte) :
    ty ∈ Config.knownTypes ↔ ty = 0x01#8 ∨ ty = 0x0c#8 ∨ ty = 0x0e#8 := by
  simp only [Config.knownTypes, List.mem_cons, List.not_mem_nil, or_false]
  rfl

/-- A known type byte is not special, so it stands next to the header as it is (R65, R179). -/
theorem wireOf_coreOf_getElem?_one {ty : Byte} (sq : Byte) (body : List Byte)
    (hty : ty ∈ Config.knownTypes) : (wireOf (coreOf ty sq body))[1]? = some ty := by
  have hlit : escape ty = [ty] := by
    rcases (mem_knownTypes_iff ty).1 hty with rfl | rfl | rfl <;> rfl
  obtain ⟨fields, hcore⟩ : ∃ fields, coreOf ty sq body = ty :: fields := ⟨_, rfl⟩
  rw [hcore, wireOf, List.flatMap_cons, hlit]
  rfl

theorem cmdType_mem_knownTypes (b : BitVec 1) : cmdType b ∈ Config.knownTypes := by
  unfold cmdType
  split <;> decide

/-- A TX operation is FRAME of a known type byte (R172, R175, R176). -/
theorem exec_tx_eq_frameOp {i : Instr}
    (hi : (∃ b seq body, i = .txEncodeCmd b seq body) ∨ ∃ seq, i = .txEncodeAck seq) :
    ∃ ty ∈ Config.knownTypes, ∃ sq body, ∀ s, exec i s = operate (frameOp ty sq body) s := by
  rcases hi with ⟨b, seq, body, rfl⟩ | ⟨seq, rfl⟩
  · exact ⟨cmdType b, cmdType_mem_knownTypes b, seq, body, exec_txEncodeCmd b seq body⟩
  · exact ⟨Config.typeAck, by decide, ackSeq seq, [], exec_txEncodeAck seq⟩

/-- Settles O35: what an operation emits is a frame of a known type, and the escaped core between its
header and its trailer is canonical. -/
theorem canonicalOutput : Obligations.CanonicalOutput := by
  intro i s t w hi h hw hne
  obtain ⟨ty, hty, sq, body, hexec⟩ := exec_tx_eq_frameOp hi
  obtain rfl : w = wireOf (coreOf ty sq body) := by
    rcases operate_frameOp_next_cases (hexec s ▸ h) with ⟨-, rfl⟩ | ⟨-, rfl⟩
    · exact absurd (by simpa using hw) hne
    · exact (List.append_cancel_left hw).symm
  refine ⟨wireOf_getElem?_zero _, wireOf_getElem?_last _, ?_, fun k hpos hk => ?_⟩
  · rw [wireOf_coreOf_getElem?_one sq body hty]
    simpa [mem_knownTypes_iff] using hty
  · obtain ⟨j, rfl⟩ := Nat.exists_eq_add_of_le' hpos
    rw [wireOf_length] at hk ⊢
    have hj : j < ((coreOf ty sq body).flatMap escape).length := by omega
    obtain ⟨hheader, htrailer, hesc⟩ := canonical_flatMap_escape (coreOf ty sq body) j
    rw [wireOf_getElem?_succ _ hj]
    refine ⟨hheader, htrailer, fun h => ?_⟩
    obtain ⟨x, hx, hnext⟩ := hesc h
    have hj' := (List.getElem?_eq_some_iff.1 hnext).1
    rw [wireOf_getElem?_succ _ hj', hnext]
    exact ⟨by omega, by simpa [mem_canonicalSeconds_iff] using hx⟩

/-! ## The way back through the RX unit -/

/-- The view of a frame that FRAME assembled: the fields it was made from, and a valid checksum
(R150, R174). -/
theorem viewOf_frameBuf (ty sq : Byte) {body : List Byte} (hlen : body.length < 4294967296)
    (e : Bool) :
    viewOf ⟨frameBuf ty sq body, e⟩ =
      { kind := classify ty, rawType := ty, seq := sq, payload := body,
        chk := .ok (checksum ([ty, sq] ++ lengthBytes (BitVec.ofNat 32 body.length) ++ body)) } := by
  let n : Word32 := BitVec.ofNat 32 body.length
  have hdeclared : body.length = (lengthOf (n.extractLsb' 24 8) (n.extractLsb' 16 8)
      (n.extractLsb' 8 8) (n.extractLsb' 0 8)).toNat := by
    rw [lengthOf_lengthBytes, BitVec.toNat_ofNat, Nat.mod_eq_of_lt hlen]
  obtain ⟨-, hview⟩ := viewOfACompletedFrame Config.header ty sq _ _ _ _
    (checksum ([ty, sq] ++ lengthBytes n ++ body)) Config.trailer body e hdeclared
  have hcells : frameBuf ty sq body =
      [Config.header, ty, sq] ++ lengthBytes n ++ body ++
        [checksum ([ty, sq] ++ lengthBytes n ++ body), Config.trailer] := by
    simp [frameBuf, coreOf, n]
  rw [hcells]
  exact hview.trans (congrArg (MessageView.mk (classify ty) ty sq body) (if_pos rfl))

/-- A frame read from idle yields one event, at its trailer (R116, R123). -/
theorem wireEvents_frame {p : Config.Params} (ty sq : Byte) {body : List Byte}
    (hlen : body.length < 4294967296) (hfit : fits p.bufCap (9 + body.length) = true) :
    wireEvents p (wireOf (coreOf ty sq body)) 0 RxUnit.idle =
      [((wireOf (coreOf ty sq body)).length, .ready (viewOf ⟨frameBuf ty sq body, false⟩))] := by
  have hread := wireEvents_of_event [] 0 (r := RxUnit.idle)
    (continues_frame ty sq hlen hfit) (rxByte_trailer ty sq hlen) rfl
  simpa [wireOf, wireEvents] using hread

/-- Settles O36: the frame is emitted within the body limit, below `2^32`, so its length field declares
its body; one call reads it whole, and O21 carries this to every split. -/
theorem emittedFramesRoundTrip : Obligations.EmittedFramesRoundTrip := by
  intro i ty sq body s t u hi h ht hu hidle hfit w sum v
  have hexec : exec i s = operate (frameOp ty sq body) s := by
    rcases hi with ⟨b, rfl, rfl⟩ | ⟨seq, rfl, rfl, rfl, rfl⟩ <;> rfl
  obtain ⟨hle, rfl⟩ := emit_of_fault_none (hexec ▸ h) ht
  have hlen : body.length < 4294967296 := Nat.lt_of_le_of_lt hle s.params.txMaxBody.isLt
  have hw : w = wireOf (coreOf ty sq body) := List.drop_left
  have hv : viewOf ⟨frameBuf ty sq body, false⟩ = v := viewOf_frameBuf ty sq hlen false
  rw [hw, ← hv]
  refine ⟨?_, fun sizes events hevents => ?_⟩
  · have hparse := exec_rxParse_frame ty sq hlen [] hu (by rw [hidle]; rfl) hfit
    rw [List.append_nil] at hparse
    exact ⟨_, hparse, hu, rfl⟩
  · rw [chunkSplitInvariance u _ sizes events hu hevents, hidle]
    exact wireEvents_frame ty sq hlen hfit

end Sys2Proof.Proofs
end

section
/-! Proofs for spec/60_exceptions.md: how an operation ends (R205, R211), what a recorded fault stops
(R206), the idle block (R229), and the host beside the block: its session (R222 to R224) and the
view-window duty (R215). -/

namespace Sys2Proof.Proofs
open Sys2Proof.Machine

/-- Settles O6: with nothing pending `step` has no request to decode. -/
theorem idleBlockHoldsItsState : Obligations.IdleBlockHoldsItsState := by
  intro s hpending
  unfold step
  rw [hpending]

/-! ## How an operation ends -/

/-- What the effects of an operation leave to its end (R10, R205): the fault and the outcomes are not
written before it, and an operation that raises a fault has emitted nothing. -/
structure EndsOnce (op : State → State × Except ModelFault OpOutcome) : Prop where
  fault_eq : ∀ s, (op s).1.fault = s.fault
  outcomes_eq : ∀ s, (op s).1.outcomes = s.outcomes
  txOut_of_error : ∀ s f, (op s).2 = .error f → (op s).1.txOut = s.txOut

theorem endsOnce_onRx (f : Config.Params → RxUnit → RxUnit × Except ModelFault OpOutcome) :
    EndsOnce (onRx f) :=
  ⟨fun _ => rfl, fun _ => rfl, fun _ _ _ => rfl⟩

theorem endsOnce_checksumOp (bytes : List Byte) : EndsOnce (checksumOp bytes) :=
  ⟨fun _ => rfl, fun _ => rfl, fun _ _ _ => rfl⟩

/-- The body limit of R173 stands before anything is emitted (R208(d)). -/
theorem endsOnce_frameOp (ty sq : Byte) (body : List Byte) : EndsOnce (frameOp ty sq body) := by
  refine ⟨fun s => ?_, frameOp_fst_outcomes ty sq body, fun s f hf => ?_⟩
  · rcases frameOp_cases ty sq body s with ⟨-, e⟩ | ⟨-, e⟩ <;> rw [e]
  · rcases frameOp_cases ty sq body s with ⟨-, e⟩ | ⟨-, e⟩ <;> rw [e] at hf ⊢
    cases hf

/-- Every instruction but an undefined op runs as an operation that ends once. -/
theorem exec_eq_operate {i : Instr} (hi : ∀ op, i ≠ .undefinedOp op) :
    ∃ op, EndsOnce op ∧ ∀ s, exec i s = operate op s := by
  cases hrx : rxInstr i with
  | true =>
    obtain ⟨f, -, e⟩ := exec_eq_onRx hrx
    exact ⟨onRx f, endsOnce_onRx f, e⟩
  | false =>
    rcases exec_cases i with ⟨op, rfl⟩ | ⟨hyes, -⟩ | rfl | rfl | ⟨-, -, -, ty, sq, body, e⟩ |
        ⟨bytes, rfl⟩
    · exact absurd rfl (hi op)
    · exact absurd (hyes.symm.trans hrx) (by decide)
    · cases hrx
    · cases hrx
    · exact ⟨_, endsOnce_frameOp ty sq body, e⟩
    · exact ⟨_, endsOnce_checksumOp bytes, fun _ => rfl⟩

/-- The two ends of an operation (R205): one outcome and no fault, or a fault, no outcome and nothing
emitted. -/
theorem exec_ends {i : Instr} {s t : State} (h : exec i s = .next t) :
    (t.fault = none ∧ ∃ o, t.outcomes = s.outcomes ++ [o]) ∨
    (t.fault ≠ none ∧ t.outcomes = s.outcomes ∧ t.txOut = s.txOut) := by
  have hi : ∀ op, i ≠ .undefinedOp op := by
    rintro op rfl
    cases h
  obtain ⟨op, hop, e⟩ := exec_eq_operate hi
  obtain ⟨hs, rfl⟩ := (operate_next_iff op s t).1 (e s ▸ h)
  cases hres : (op s).2 with
  | ok o => exact .inl ⟨(hop.fault_eq s).trans hs, o, by simp [hop.outcomes_eq]⟩
  | error f => exact .inr ⟨by simp, hop.outcomes_eq s, hop.txOut_of_error s f hres⟩

/-- Settles O11: an operation on a fault-free state has its step, and `exec_ends` lists its ends. -/
theorem everyOperationHasAStep : Obligations.EveryOperationHasAStep := by
  intro i s hs hi
  obtain ⟨op, -, e⟩ := exec_eq_operate hi
  have h := (e s).trans (operate_of_fault_none op hs)
  obtain ⟨hparams, hpending⟩ := exec_keeps_params h
  exact ⟨_, h, hparams, hpending, exec_ends h⟩

/-! ## A recorded fault -/

/-- On a faulted state a step can only be idle (R206, R229). -/
theorem step_eq_of_fault {s t : State} (hs : s.fault ≠ none) (h : step s = .next t) : t = s := by
  rcases step_next_cases h with rfl | ⟨rest, i, hexec⟩
  · rfl
  · exact absurd (fault_none_of_exec_next hexec) hs

/-- A run from a faulted state never leaves that state. -/
theorem run_eq_of_fault {k : Nat} {s t : State} (hs : s.fault ≠ none)
    (h : Host.Core.run Sys2Proof.core k s = .next t) : t = s := by
  induction k with
  | zero => cases h; rfl
  | succ k ih =>
    simp only [Host.Core.run] at h
    split at h
    · rename_i u hstep
      obtain rfl : u = s := step_eq_of_fault hs hstep
      exact ih h
    · cases h
    · cases h

/-- The fault of R206 is still there at the end that R235 asks to be without one. -/
theorem not_endsWell_of_fault {qs : List Request} {s : State} (hs : s.fault ≠ none) :
    ¬EndsWell qs s := by
  rintro ⟨t, hrun, ht⟩
  obtain rfl := run_eq_of_fault (s := { s with pending := qs }) hs hrun
  exact hs ht

/-- Settles O9: an operation is `operate` of something, whose first test is the fault register. -/
theorem faultIsSticky : Obligations.FaultIsSticky := by
  refine ⟨fun i s f hf hi => ?_, fun i s t hs h => hs (fault_none_of_exec_next h),
    fun _ _ => not_endsWell_of_fault⟩
  obtain ⟨op, -, e⟩ := exec_eq_operate hi
  exact (e s).trans (operate_of_fault op hf)

/-! ## The host's session -/

section
variable (h : Session) {v : MessageView} {c : Byte}

theorem reactView_ack (hk : v.kind = .ack) (hc : v.chk = .ok c) :
    h.reactView v = ({ cur := v.seq, awaiting := false }, []) := by
  simp [Session.reactView, hk, hc]

theorem reactView_command (hk : v.kind = .command1 ∨ v.kind = .command2) (hc : v.chk = .ok c) :
    h.reactView v = (h, [.sendAck v.seq, .decodePayload v.kind v.payload]) := by
  rcases hk with hk | hk <;> simp [Session.reactView, hk, hc]

theorem reactView_unknown (hk : v.kind = .unknown) : h.reactView v = (h, [.logAndSkip]) := by
  simp [Session.reactView, hk]

/-- With a bad checksum the kind makes no difference (R224). -/
theorem reactView_err {e g : Byte} (hc : v.chk = .err e g) : h.reactView v = (h, [.logAndSkip]) := by
  cases hk : v.kind <;> simp [Session.reactView, hk, hc]

/-- Only an Ack with a valid checksum changes the session (R223). -/
theorem ack_of_reactView_ne (hne : (h.reactView v).1 ≠ h) : v.kind = .ack ∧ ∃ c, v.chk = .ok c := by
  cases hc : v.chk with
  | err e g => exact absurd (by rw [reactView_err h hc]) hne
  | ok c =>
    cases hk : v.kind with
    | ack => exact ⟨rfl, c, rfl⟩
    | command1 => exact absurd (by rw [reactView_command h (.inl hk) hc]) hne
    | command2 => exact absurd (by rw [reactView_command h (.inr hk) hc]) hne
    | unknown => exact absurd (by rw [reactView_unknown h hk]) hne

end

/-- Settles O51: the reaction to a Ready is `reactView`, one lemma per row of R224, and the other
clauses are rows of `react` and `sendCommand` themselves. -/
theorem hostCounterFollowsAcks : Obligations.HostCounterFollowsAcks := by
  refine ⟨fun h _ _ _ => reactView_ack h, fun h o hne => ?_, fun _ _ => rfl, fun h v _ hskip => ?_,
    fun h _ _ _ => reactView_command h, fun _ _ _ => rfl, fun _ _ _ => rfl⟩
  · cases o with
    | ready v n =>
      obtain ⟨hk, c, hc⟩ := ack_of_reactView_ne h hne
      exact ⟨v, n, c, rfl, hk, hc⟩
    | _ => exact absurd rfl hne
  · rcases hskip with hk | ⟨e, g, hc⟩
    · exact reactView_unknown h hk
    · exact reactView_err h hc

/-! ## The view-window duty -/

/-- The host gets back exactly the outcome that the operation appended (R31, R205). -/
theorem issue_got_eq_some_iff {i : Instr} {s t : State} (h : exec i s = .next t) (o : OpOutcome) :
    (issue i s).1.got = some o ↔ t.fault = none ∧ t.outcomes = s.outcomes ++ [o] := by
  rw [issue_of_next h]
  rcases exec_ends h with ⟨hf, o', ho⟩ | ⟨hf, -⟩
  · simp [hf, ho]
  · simp [hf]

/-- The last exchange decides the duty when it is one of the RX unit's (R215). -/
theorem viewDuty_append_rx {record : List Exchange} {e : Exchange} (he : rxInstr e.issued = true) :
    viewDuty (record ++ [e]) = true ↔ ∃ v n, e.got = some (.ready v n) := by
  obtain ⟨i, got⟩ := e
  rw [viewDuty_iff, lastRx_append, if_pos he]
  simp

/-- Of the RX unit's operations only an RX_PARSE returns Ready (R31, R33). -/
theorem exec_eq_rxParse_of_ready {i : Instr} {s t : State} {v : MessageView} {n : Nat}
    (hi : rxInstr i = true) (h : exec i s = .next t) (ho : t.outcomes = s.outcomes ++ [.ready v n]) :
    ∃ chunk, exec (.rxParse chunk) s = .next t := by
  rcases exec_cases i with ⟨op, rfl⟩ | ⟨-, -, chunk, e⟩ | rfl | rfl | ⟨hnot, -⟩ | ⟨bytes, rfl⟩
  · cases hi
  · exact ⟨chunk, (e s).symm.trans h⟩
  · obtain ⟨-, rfl⟩ := (operate_next_iff rxResetOp s t).1 h
    simp [rxResetOp] at ho
  · obtain ⟨-, rfl⟩ := (operate_next_iff viewReadOp s t).1 h
    cases hc : s.rx.complete <;> simp [viewReadOp, hc] at ho
  · exact absurd (hnot.symm.trans hi) (by decide)
  · cases hi

/-- An operation of the RX unit that returned Ready left the frame of that view retained (R156). -/
theorem retained_of_ready {i : Instr} {s t : State} {v : MessageView} {n : Nat}
    (hi : rxInstr i = true) (h : exec i s = .next t) (ho : t.outcomes = s.outcomes ++ [.ready v n]) :
    t.rx.complete = true ∧ v = viewOf t.rx := by
  obtain ⟨chunk, hparse⟩ := exec_eq_rxParse_of_ready hi h ho
  obtain ⟨-, -, hc, hv, -⟩ := unreadBytesHaveNoEffect chunk s t v n hparse ho
  exact ⟨hc, hv⟩

/-- An instruction outside the RX unit that has a step leaves the RX unit as it is (R48). -/
theorem exec_rx_eq_of_not_rxInstr {i : Instr} {s t : State} (hi : rxInstr i = false)
    (h : exec i s = .next t) : t.rx = s.rx := by
  have htx : txChkInstr i = true := by
    cases i with
    | txEncodeCmd | txEncodeAck | checksum => rfl
    | undefinedOp => cases h
    | _ => cases hi
  obtain ⟨hkept, -, -⟩ := unitsShareNoState i s t h
  exact hkept htx

/-- The host's record is right about the block: with no fault recorded, a last RX operation that
returned Ready has its frame retained, and its view is that frame's. -/
def Tracks (record : List Exchange) (s : State) : Prop :=
  s.fault = none → ∀ i v n, lastRx record = some ⟨i, some (.ready v n)⟩ →
    s.rx.complete = true ∧ v = viewOf s.rx

theorem tracks_nil (s : State) : Tracks [] s := fun _ _ _ _ hlast => by simp at hlast

theorem Tracks.append_issue {record : List Exchange} {s : State} (htracks : Tracks record s)
    (i : Instr) : Tracks (record ++ [(issue i s).1]) (issue i s).2 := by
  intro hf j v n hlast
  rw [lastRx_append, issue_issued] at hlast
  by_cases hnext : ∃ t, exec i s = .next t
  · obtain ⟨t, h⟩ := hnext
    have hstate : (issue i s).2 = t := by rw [issue_of_next h]
    rw [hstate] at hf ⊢
    cases hi : rxInstr i with
    | true =>
      rw [hi, if_pos rfl, Option.some_inj] at hlast
      obtain ⟨-, ho⟩ := (issue_got_eq_some_iff h (.ready v n)).1 (by rw [hlast])
      exact retained_of_ready hi h ho
    | false =>
      rw [hi] at hlast
      rw [exec_rx_eq_of_not_rxInstr hi h]
      exact htracks (fault_none_of_exec_next h) j v n hlast
  · rw [issue_of_stop (not_exists.1 hnext)] at hf hlast ⊢
    split at hlast
    · cases hlast
    · exact htracks hf j v n hlast

theorem tracks_issueAll (is : List Instr) {record : List Exchange} {s : State}
    (htracks : Tracks record s) : Tracks (record ++ (issueAll is s).1) (issueAll is s).2 := by
  induction is generalizing record s with
  | nil => simpa [issueAll] using htracks
  | cons i rest ih => simpa [issueAll] using ih (htracks.append_issue i)

/-- Settles O52: `Tracks` holds of the empty record and every exchange keeps it, so the view the host
relies on is that of the retained frame; and only the appended outcome decides the permission. -/
theorem viewDutyAvoidsStaleView : Obligations.ViewDutyAvoidsStaleView := by
  refine ⟨fun is s hduty hf => ?_, fun record i s t hi h => ?_⟩
  · obtain ⟨i, v, n, hlast⟩ := (viewDuty_iff _).1 hduty
    obtain ⟨hc, rfl⟩ := tracks_issueAll is (tracks_nil s) hf i v n hlast
    exact ⟨i, _, n, hlast, exec_viewRead_of_complete hf hc⟩
  · rw [viewDuty_append_rx (by rwa [issue_issued])]
    simp only [issue_got_eq_some_iff h, exists_and_left]

end Sys2Proof.Proofs
end

section
/-! Proofs for spec/70_reset_and_hazards.md: RX_RESET (R230), and the runs that never
end well (R236). -/

namespace Sys2Proof.Proofs
open Sys2Proof.Machine

/-- Settles O8: RX_RESET is `operate` of `rxResetOp`, whose first test is the fault register. -/
theorem rxResetReturnsToIdle : Obligations.RxResetReturnsToIdle :=
  ⟨fun _ hs => exec_rxReset_of_fault_none hs, fun _ _ hf => operate_of_fault rxResetOp hf⟩

/-! ## A run takes its requests one by one -/

/-- A step on a pending request runs what it decodes to, and leaves the later requests pending. -/
theorem exists_exec_of_step_cons {s t : State} {q : Request} {rest : List Request}
    (hpending : s.pending = q :: rest) (h : step s = .next t) :
    ∃ i, decode q = .ok i ∧ exec i { s with pending := rest } = .next t ∧ t.pending = rest := by
  cases hdec : decode q with
  | error why => simp [step, hpending, hdec] at h
  | ok i =>
    rw [stepRunsTheDecodedInstruction s q rest i hpending hdec] at h
    obtain ⟨-, hrest⟩ := exec_keeps_params h
    exact ⟨i, rfl, h, hrest⟩

/-- A longer run that reaches its end is one step and the run from there. -/
theorem exists_step_of_run_succ {k : Nat} {s t : State}
    (h : Host.Core.run Sys2Proof.core (k + 1) s = .next t) :
    ∃ u, step s = .next u ∧ Host.Core.run Sys2Proof.core k u = .next t := by
  simp only [Host.Core.run] at h
  split at h
  · rename_i u hstep
    exact ⟨u, hstep, h⟩
  · cases h
  · cases h

/-- In a run over all the pending requests that reaches its end, each of them was executed. -/
theorem exists_exec_of_mem_run {qs : List Request} {s t : State} (hpending : s.pending = qs)
    (h : Host.Core.run Sys2Proof.core qs.length s = .next t) {q : Request} (hq : q ∈ qs) :
    ∃ i u v, decode q = .ok i ∧ exec i u = .next v := by
  induction qs generalizing s with
  | nil => cases hq
  | cons first rest ih =>
    obtain ⟨u, hstep, hrun⟩ := exists_step_of_run_succ h
    obtain ⟨i, hdec, hexec, hrest⟩ := exists_exec_of_step_cons hpending hstep
    rcases List.mem_cons.1 hq with rfl | hlater
    · exact ⟨i, _, u, hdec, hexec⟩
    · exact ih hrest hrun hlater

/-- Settles O10: a recorded fault is still there at the end (`not_endsWell_of_fault`), and a run
that reaches an end has executed each of its requests, where an undefined op is refused. -/
theorem refusedRunNeverEndsWell : Obligations.RefusedRunNeverEndsWell := by
  refine ⟨fun _ _ => not_endsWell_of_fault, fun qs s q op hq hundefined hwell => ?_⟩
  obtain ⟨t, hrun, -⟩ := hwell
  obtain ⟨i, u, v, hdec, hexec⟩ :=
    exists_exec_of_mem_run (s := { s with pending := qs }) rfl hrun hq
  obtain rfl : i = .undefinedOp op := Except.ok.inj (hdec.symm.trans hundefined)
  rw [exec_undefinedOp] at hexec
  cases hexec

end Sys2Proof.Proofs
end
